-- ==== Sys2Proof/Word.lean ====
section
/-! DEFINITION. The unsigned word types of 00_scope.md R11: every value of the block is unsigned. -/

namespace Sys2Proof

/-- A byte of memory and an 8-bit colour channel (R11 `u8`). -/
abbrev U8 := BitVec 8

/-- A 16-bit pixel: RGB565, RGBA4, LA88 or RGBA5551 (R11 `u16`). -/
abbrev U16 := BitVec 16

/-- An RGB8 pixel named as a value (R11 `u24`, R44). -/
abbrev U24 := BitVec 24

/-- An RGBA8 pixel, and a 32-bit word of a descriptor (R11 `u32`). -/
abbrev U32 := BitVec 32

end Sys2Proof
end

