-- ==== Sys2Proof/Config.lean ====
section
/-! DEFINITION. What an implementation fixes (00_scope.md R8) and the values the spec leaves free. -/

namespace Sys2Proof

/-- The arithmetic in which an implementation evaluates the luma sum (93_implementation_defined.md U8, 90_conflicts.md C1). It
is plain data, since State holds no function; `Machine.luma` is the named function it selects (R164, log 13). -/
inductive LumaArith where
  /-- R162: exact, one floor after the sum. The spec's choice (92_eei_decisions.md D9). -/
  | exact
  /-- A floating-point evaluation, of which R164 says: at some of the inputs whose exact sum is a whole number it answers one
  less, and everywhere else it agrees with R162. The list names those inputs, as `(R, G, B)`. -/
  | oneLowAt (inputs : List (U8 × U8 × U8))
  deriving DecidableEq, Repr

/-- The implementation parameters that a statement quantifies over; carried by State, and no step changes them (log 1).
Every row of R8's table not held here is fixed and stands where it is used. -/
structure Config where
  /-- ADDR_W, the one parameter R8 marks OPEN (92_eei_decisions.md D6). -/
  addrW     : Nat
  /-- How luma is evaluated (R164, 92_eei_decisions.md D9). -/
  lumaArith : LumaArith
  deriving DecidableEq, Repr

/-- The spec's choices: 32-bit addresses (R8), luma with the body of R162 (R164). -/
def Config.default : Config := { addrW := 32, lumaArith := .exact }

/-- The number of addresses there are, 2^ADDR_W (R40). -/
def Config.space (c : Config) : Nat := 2 ^ c.addrW

/-- FREE VALUE (DESIGN CHOICE, log 8): the byte a destination region holds after a reset cut its pass short, R222 ("a model
treats each as a free draw"). Applied to the draw counter of State; nothing says what it is. -/
opaque Config.freeByte : Nat → U8

/-- FREE VALUE (DESIGN CHOICE, log 3): which of several enabled agents steps next where no schedule is given, R114 ("any
enabled step of any agent may happen next"). Applied to the draw counter of State. -/
opaque Config.freeTurn : Nat → Nat

end Sys2Proof
end

