-- ==== Sys2Proof/Syntax.lean ====
section
/-! DEFINITION. The five commands of 30_encoding.md R87, one constructor per row of spec/opcode_table.json. -/

namespace Sys2Proof

/-- The operands every command has (R80 to R84): two byte addresses of ADDR_W bits, used at face value, and two unsigned
32-bit counts. -/
structure Operands where
  src    : Nat
  dst    : Nat
  width  : U32
  height : U32
  deriving DecidableEq, Repr

/-- The command set, R87. -/
inductive Instr where
  | rgba8ToRgb8      (o : Operands)   -- OP = 1, R131
  | rgba8ToRgb565    (o : Operands)   -- OP = 2, R141
  | rgba8ToRgba4     (o : Operands)   -- OP = 3, R151
  | rgba8ToLa88      (o : Operands)   -- OP = 4, R161
  | rgb565ToRgba5551 (o : Operands)   -- OP = 5, R176
  deriving DecidableEq, Repr

/-- The operands of a command. -/
def Instr.operands : Instr → Operands
  | .rgba8ToRgb8 o      => o
  | .rgba8ToRgb565 o    => o
  | .rgba8ToRgba4 o     => o
  | .rgba8ToLa88 o      => o
  | .rgb565ToRgba5551 o => o

/-- The operation number OP of a command (R87). -/
def Instr.op : Instr → Nat
  | .rgba8ToRgb8 _      => 1
  | .rgba8ToRgb565 _    => 2
  | .rgba8ToRgba4 _     => 3
  | .rgba8ToLa88 _      => 4
  | .rgb565ToRgba5551 _ => 5

/-- The mnemonics of R87. -/
def Instr.mnemonic : Instr → String
  | .rgba8ToRgb8 _      => "rgba8_to_rgb8"
  | .rgba8ToRgb565 _    => "rgba8_to_rgb565"
  | .rgba8ToRgba4 _     => "rgba8_to_rgba4"
  | .rgba8ToLa88 _      => "rgba8_to_la88"
  | .rgb565ToRgba5551 _ => "rgb565_to_rgba5551"

/-- The textual form of a command, R91: the mnemonic and four unsigned numbers (here in decimal), in the order of the
source's call. -/
def Instr.text (i : Instr) : String :=
  i.mnemonic ++ " " ++ toString i.operands.src ++ ", " ++ toString i.operands.dst ++ ", " ++
    toString i.operands.width.toNat ++ ", " ++ toString i.operands.height.toNat

end Sys2Proof
end

