-- ==== Sys2Proof/WellFormed.lean ====
section
/-! DEFINITION. When a command can be written as a descriptor: SRC and DST have ADDR_W bits (30_encoding.md R82).
WIDTH and HEIGHT are 32-bit words by their type, and every value of them is legal (R83, R89). -/

namespace Sys2Proof

/-- SRC and DST fit ADDR_W bits (R82). -/
def Operands.wf (c : Config) (o : Operands) : Bool :=
  decide (o.src < c.space) && decide (o.dst < c.space)

/-- A command is well formed when its operands are. -/
def Instr.wf (c : Config) (i : Instr) : Bool := i.operands.wf c

end Sys2Proof
end

