-- ==== Sys2Proof/Decode.lean ====
section
/-! DEFINITION. The command descriptor, its decoder and its encoder (30_encoding.md R80 to R93).
A descriptor is five fields handed over in one transfer. As one number of 96 + 2*ADDR_W bits, CTRL is the low 32 bits and
SRC, DST, WIDTH, HEIGHT follow in the order of R80's table (DESIGN CHOICE, log 2: R80 numbers the words and fixes no order of
them within one number). -/

namespace Sys2Proof

/-- The five fields of R80. SRC and DST have ADDR_W bits, which `Descriptor.ofBits` sees to. -/
structure Descriptor where
  ctrl   : U32
  src    : Nat
  dst    : Nat
  width  : U32
  height : U32
  deriving DecidableEq, Repr

/-- The result of decoding, R93: a command, or `Reserved`. -/
inductive Decoded where
  | cmd (i : Instr)
  | reserved
  deriving DecidableEq, Repr

/-- The command a descriptor stands for, where it is one. -/
def Decoded.instr? : Decoded → Option Instr
  | .cmd i    => some i
  | .reserved => none

/-- `len` bits of `bits` from bit `lo` up, as a number (R10). -/
def bitField (bits lo len : Nat) : Nat := bits / 2 ^ lo % 2 ^ len

/-- The fields of a descriptor presented as one number (R80's table, log 2). Bits above the descriptor's length are no
part of the transfer. -/
def Descriptor.ofBits (c : Config) (bits : Nat) : Descriptor where
  ctrl   := BitVec.ofNat 32 (bitField bits 0 32)
  src    := bitField bits 32 c.addrW
  dst    := bitField bits (32 + c.addrW) c.addrW
  width  := BitVec.ofNat 32 (bitField bits (32 + 2 * c.addrW) 32)
  height := BitVec.ofNat 32 (bitField bits (64 + 2 * c.addrW) 32)

/-- A descriptor as one number of 96 + 2*ADDR_W bits (R80, log 2). -/
def Descriptor.toBits (c : Config) (d : Descriptor) : Nat :=
  d.ctrl.toNat + 2 ^ 32 * d.src + 2 ^ (32 + c.addrW) * d.dst + 2 ^ (32 + 2 * c.addrW) * d.width.toNat +
    2 ^ (64 + 2 * c.addrW) * d.height.toNat

/-- Decoding, R93: the whole control word is matched (R87); every CTRL but 1 to 5 is reserved (R88); the other four fields
never make it fail (R89). -/
def Descriptor.decode (d : Descriptor) : Decoded :=
  match d.ctrl.toNat with
  | 1 => .cmd (.rgba8ToRgb8 { src := d.src, dst := d.dst, width := d.width, height := d.height })
  | 2 => .cmd (.rgba8ToRgb565 { src := d.src, dst := d.dst, width := d.width, height := d.height })
  | 3 => .cmd (.rgba8ToRgba4 { src := d.src, dst := d.dst, width := d.width, height := d.height })
  | 4 => .cmd (.rgba8ToLa88 { src := d.src, dst := d.dst, width := d.width, height := d.height })
  | 5 => .cmd (.rgb565ToRgba5551 { src := d.src, dst := d.dst, width := d.width, height := d.height })
  | _ => .reserved

/-- The decoder of the command port: any number presented is split into its fields and decoded. -/
def decodeBits (c : Config) (bits : Nat) : Decoded := (Descriptor.ofBits c bits).decode

/-- Encoding: `CTRL = OP` with the reserved bits 0 (R81, R87), the operands at face value (R84). -/
def Instr.encode (i : Instr) : Descriptor where
  ctrl   := BitVec.ofNat 32 i.op
  src    := i.operands.src
  dst    := i.operands.dst
  width  := i.operands.width
  height := i.operands.height

/-- A command as the number the host presents. -/
def encodeBits (c : Config) (i : Instr) : Nat := i.encode.toBits c

/-- The host's question: the command the decoder reads from the descriptor whose low `nbits` bits are `w` and whose other
bits are 0, at the default ADDR_W. Bit 0 of `w` is bit 0 of CTRL, as spec/opcode_table.json numbers it. -/
def decodeTableWord (nbits w : Nat) : Option Instr :=
  (decodeBits Config.default (w % 2 ^ nbits)).instr?

end Sys2Proof
end

