-- ==== Sys2Proof/Machine/State.lean ====
section
/-! DEFINITION. The machine's state as plain data (10_state.md), the host's moves (40_pass_common.md R111), and the reasons a
step can stop (60_exceptions.md R190, R192). -/

namespace Sys2Proof.Machine

/-- The five channels, numbered 1 to 5 after the operations (10_state.md R23, R204): channel `k` executes operation `k`. -/
inductive Chan where
  | ch1 | ch2 | ch3 | ch4 | ch5
  deriving DecidableEq, Repr

/-- The record of a pass in flight: the fields of `ch[k]` other than `busy` (R23). `src` and `dst` have ADDR_W bits; `n` and
`idx` have 64 bits and are exact natural numbers that cannot wrap (R26). -/
structure Pass where
  src : Nat
  dst : Nat
  n   : Nat
  idx : Nat
  deriving DecidableEq, Repr

/-- The five channel records. `none` is an idle channel, whose other fields have no meaning and are left out (R24: "an
`Option` of a record of four fields is an exact representation"); `some p` is `busy = 1`. -/
structure Channels where
  ch1 : Option Pass
  ch2 : Option Pass
  ch3 : Option Pass
  ch4 : Option Pass
  ch5 : Option Pass
  deriving DecidableEq, Repr

/-- Memory `M` (20_memory.md R40) as (address, byte) pairs, addresses strictly rising, no entry equal to what an unlisted
address reads as (`Memory.wf`). -/
abbrev Memory := List Host.Cell

/-- A region, 00_scope.md R17: the addresses `base` to `base + len - 1`. -/
structure Region where
  base : Nat
  len  : Nat
  deriving DecidableEq, Repr

/-- The ghost buffers the host lends to one command, 40_pass_common.md R102 check 2: exactly the regions the command names
("takes the lent buffers to be `S` and `D` themselves"), or two buffers of ordinary memory. -/
inductive Lent where
  | exact
  | buffers (input output : Region)
  deriving DecidableEq, Repr

/-- The host's moves, one per row of R111's table (issue, wait, STATUS read, memory read and write, reset). The descriptor of
an issue is the number on the command port, of which the low 96 + 2*ADDR_W bits count (R80). -/
inductive HostMove where
  | issue  (bits : Nat) (lent : Lent)
  | wait   (k : Chan)
  | status
  | read   (a : Nat)
  | write  (a : Nat) (b : U8)
  | reset
  deriving DecidableEq, Repr

/-- Who takes a step, R94. -/
inductive Agent where
  | host
  | channel (k : Chan)
  deriving DecidableEq, Repr

/-- The status value, 10_state.md R35: five bits indexed 1 to 5, no bit 0. -/
structure Status where
  s1 : Bool
  s2 : Bool
  s3 : Bool
  s4 : Bool
  s5 : Bool
  deriving DecidableEq, Repr

/-- What the block tells the host: the event `done(k)` (R109), a STATUS value read (R110), a byte of memory read (R111). -/
inductive Seen where
  | done   (k : Chan)
  | status (v : Status)
  | byte   (a : Nat) (b : U8)
  deriving DecidableEq, Repr

/-- Everything a step reads and writes. INVENTORY.md lists each field with the rule that names it. -/
structure State where
  /-- ADDR_W and the luma arithmetic; constant along every run (R8, R32, R164, log 1, log 13). -/
  cfg      : Config
  /-- The channel records (R23). -/
  ch       : Channels
  /-- Memory (R40). -/
  mem      : Memory
  /-- The host's remaining moves, oldest first; the head is what it presents now (R94, R111, log 3). -/
  host     : List HostMove
  /-- The turns still to be taken, oldest first; when empty, a free value picks the agent (R114, log 3). -/
  schedule : List Agent
  /-- The buffers lent to the command being issued, ghost data of the issue step (R102, log 7). -/
  lent     : Lent
  /-- The host's record of what the block told it, newest first (R110, R111, log 10). The model's own field. -/
  seen     : List Seen
  /-- Free values drawn so far (log 8). The model's own field. -/
  draws    : Nat
  deriving DecidableEq, Repr

/-- There is no fault: the block raises no exception (R190), and "the treatment `fault` is never used"
(93_implementation_defined.md). -/
inductive Fault where
  deriving DecidableEq, Repr

/-- The refusal reasons: the closed list of R192, in its order, after one name that the host's interface fixes. Each is safe: the
model declines to say what the hardware does. -/
inductive Refusal where
  /-- The host's fixed name for an instruction that has no meaning yet. Nothing raises it: each of the five commands has its
  meaning, and no step answers it. Safe. -/
  | notModelled (mnemonic : String)
  /-- Raised by the host's issue: CTRL is not one of 1 to 5 (R88, R100). Safe. -/
  | reservedEncoding
  /-- Raised by an issue, R102 check 1: a region would pass 2^ADDR_W. Raised too by a host memory move or a pixel step at or
  above 2^ADDR_W, a situation no rule gives a meaning (R40, R192, log 11). Safe. -/
  | addressWrap
  /-- Raised by an issue, R102 check 2: a region is not inside the buffer the host lent (R193). Safe. -/
  | invalidBufferSize
  /-- Raised by an issue, R102 check 3: source and destination share an address. Safe. -/
  | bufferOverlap
  /-- Raised by an issue, R102 check 4: a region conflicts with a pass in flight on another channel. Safe. -/
  | channelConflict
  /-- Raised by a host access to a leased region (R111, R226 to R228). Safe. -/
  | leaseViolation
  deriving DecidableEq, Repr

/-- The machine right after reset (10_state.md R33): every channel idle, ADDR_W at its default (R8), luma
with the body of R162 (R164), nothing listed in memory.
The fields the spec gives no value (host, schedule, lent, seen, draws) are DESIGN CHOICEs (log 3, 7, 8, 10). -/
def State.reset : State where
  cfg      := Config.default
  ch       := { ch1 := none, ch2 := none, ch3 := none, ch4 := none, ch5 := none }
  mem      := []
  host     := []
  schedule := []
  lent     := .exact
  seen     := []
  draws    := 0

end Sys2Proof.Machine
end

