-- ==== Sys2Proof/Machine/Ops.lean ====
section
/-! DEFINITION. The named operations over memory and the channel records. -/

namespace Sys2Proof.Machine

/-! ## Memory (20_memory.md R40, 00_scope.md R13) -/

/-- What an address nothing has written reads as (DESIGN CHOICE, unsafe, log 6: the spec gives no power-on contents). -/
def Memory.unlisted : U8 := 0#8

/-- Reading one byte: the canonical list is searched up to the address. -/
def Memory.read : Memory → Nat → U8
  | [], _ => Memory.unlisted
  | c :: m, a => if a < c.1 then Memory.unlisted else if a = c.1 then c.2 else Memory.read m a

/-- Writing one byte, keeping the canonical form: writing what an unlisted address reads as removes the entry. -/
def Memory.write : Memory → Nat → U8 → Memory
  | [], a, b => if b = Memory.unlisted then [] else [(a, b)]
  | c :: m, a, b =>
    if a < c.1 then (if b = Memory.unlisted then c :: m else (a, b) :: c :: m)
    else if a = c.1 then (if b = Memory.unlisted then m else (a, b) :: m)
    else c :: Memory.write m a b

/-- Every address of the list is above `lo`, the addresses rise strictly, and no entry holds the unlisted value. -/
def Memory.wfAbove : Option Nat → Memory → Bool
  | _, [] => true
  | lo, c :: m =>
    (match lo with
      | none => true
      | some a => decide (a < c.1)) && (c.2 != Memory.unlisted) && Memory.wfAbove (some c.1) m

/-- The canonical form of memory: equal memories are equal lists. -/
def Memory.wf (m : Memory) : Bool := Memory.wfAbove none m

/-- `MemRead(addr, n)`, R13: the byte at the lowest address is the least significant. -/
def memRead (m : Memory) (a : Nat) : (n : Nat) → BitVec (8 * n)
  | 0 => 0#0
  | n + 1 => (memRead m (a + 1) n ++ m.read a : BitVec (8 * n + 8))

/-- `MemWrite(addr, n, v)`, R13: byte `j` of `v` goes to `addr + j`. -/
def memWrite (m : Memory) (a : Nat) : (n : Nat) → BitVec (8 * n) → Memory
  | 0, _ => m
  | n + 1, v => memWrite (m.write a (v.extractLsb' 0 8)) (a + 1) n (v.extractLsb' 8 (8 * n))

/-! ## Channel records (10_state.md R23, R24) -/

/-- `ch[k]`. -/
def Channels.get (c : Channels) : Chan → Option Pass
  | .ch1 => c.ch1
  | .ch2 => c.ch2
  | .ch3 => c.ch3
  | .ch4 => c.ch4
  | .ch5 => c.ch5

/-- `ch[k] <- v`. -/
def Channels.set (c : Channels) (k : Chan) (v : Option Pass) : Channels :=
  match k with
  | .ch1 => { c with ch1 := v }
  | .ch2 => { c with ch2 := v }
  | .ch3 => { c with ch3 := v }
  | .ch4 => { c with ch4 := v }
  | .ch5 => { c with ch5 := v }

/-- `ch[k] <- v` in a state. -/
def State.setCh (s : State) (k : Chan) (v : Option Pass) : State := { s with ch := s.ch.set k v }

/-- The channels in order. -/
def Chan.all : List Chan := [.ch1, .ch2, .ch3, .ch4, .ch5]

end Sys2Proof.Machine
end

