-- ==== Sys2Proof/Machine/Flags.lean ====
section
/-! DEFINITION. The only flags of the block, the five busy bits, and the STATUS view and `done` event made of them
(10_state.md R27, R35, 40_pass_common.md R109, R110). There are no condition codes and no sticky flags: no stage writes a flag. -/

namespace Sys2Proof.Machine

/-- `ch[k].busy` (R23, R27). -/
def State.busy (s : State) (k : Chan) : Bool := (s.ch.get k).isSome

/-- The STATUS output: `STATUS[k] = ch[k].busy` (R35). -/
def State.status (s : State) : Status where
  s1 := s.busy .ch1
  s2 := s.busy .ch2
  s3 := s.busy .ch3
  s4 := s.busy .ch4
  s5 := s.busy .ch5

/-- `STATUS[k]` (R35). -/
def Status.bit (v : Status) : Chan → Bool
  | .ch1 => v.s1
  | .ch2 => v.s2
  | .ch3 => v.s3
  | .ch4 => v.s4
  | .ch5 => v.s5

/-- What the block tells the host goes on the host's record (log 10). -/
def State.tell (s : State) (e : Seen) : State := { s with seen := e :: s.seen }

end Sys2Proof.Machine
end

