-- ==== Sys2Proof/Machine/Operands.lean ====
section
/-! DEFINITION. The operand forms: pixel sizes, the pixel count, regions, the one addressing mode, the colour fields of the
pixel formats, and the contract of an issue (00_scope.md R8, R9, R16, R17, 30_encoding.md R70 to R78, 40_pass_common.md R102,
R106). -/

namespace Sys2Proof.Machine

/-! ## Pixel sizes and counts -/

/-- `SB(op)`, source bytes per pixel (R8, R77). -/
def Chan.srcBytes : Chan → Nat
  | .ch1 => 4
  | .ch2 => 4
  | .ch3 => 4
  | .ch4 => 4
  | .ch5 => 2

/-- `DB(op)`, destination bytes per pixel (R8, R77). -/
def Chan.dstBytes : Chan → Nat
  | .ch1 => 3
  | .ch2 => 2
  | .ch3 => 2
  | .ch4 => 2
  | .ch5 => 2

/-- The channel that executes a command (R23, R87). -/
def instrChan : Instr → Chan
  | .rgba8ToRgb8 _      => .ch1
  | .rgba8ToRgb565 _    => .ch2
  | .rgba8ToRgba4 _     => .ch3
  | .rgba8ToLa88 _      => .ch4
  | .rgb565ToRgba5551 _ => .ch5

/-- `N = WIDTH * HEIGHT`, exact, never wrapped (R9, R83). -/
def pixelCount (o : Operands) : Nat := o.width.toNat * o.height.toNat

/-! ## Regions (R17) -/

/-- The region holds the address. -/
def Region.has (r : Region) (a : Nat) : Bool := decide (r.base ≤ a) && decide (a < r.base + r.len)

/-- Two regions share an address; an empty region overlaps nothing (R17). -/
def Region.overlaps (r q : Region) : Bool :=
  decide (0 < r.len) && decide (0 < q.len) && decide (r.base < q.base + q.len) && decide (q.base < r.base + r.len)

/-- Every address of `r` lies in `q`; an empty region lies in every region (R102: "When `N = 0` both regions are empty and
all four checks pass"). -/
def Region.inside (r q : Region) : Bool :=
  decide (r.len = 0) || (decide (q.base ≤ r.base) && decide (r.base + r.len ≤ q.base + q.len))

/-- `SrcRegion = (SRC, N * SB(OP))` of a command on channel `k`. -/
def srcRegionOf (k : Chan) (o : Operands) : Region := { base := o.src, len := pixelCount o * k.srcBytes }

/-- `DstRegion = (DST, N * DB(OP))` of a command on channel `k`. -/
def dstRegionOf (k : Chan) (o : Operands) : Region := { base := o.dst, len := pixelCount o * k.dstBytes }

/-- The source region of a pass in flight on channel `k`. -/
def Pass.srcRegion (p : Pass) (k : Chan) : Region := { base := p.src, len := p.n * k.srcBytes }

/-- The destination region of a pass in flight on channel `k`. -/
def Pass.dstRegion (p : Pass) (k : Chan) : Region := { base := p.dst, len := p.n * k.dstBytes }

/-- Base plus index times pixel size, for reads (R104, R106). -/
def Pass.srcAddr (p : Pass) (k : Chan) : Nat := p.src + p.idx * k.srcBytes

/-- Base plus index times pixel size, for writes (R104, R106). -/
def Pass.dstAddr (p : Pass) (k : Chan) : Nat := p.dst + p.idx * k.dstBytes

/-! ## Colour fields -/

/-- `R(p) = p[7:0]` of an RGBA8 pixel (R16, R70). -/
def red (p : U32) : U8 := p.extractLsb' 0 8

/-- `G(p) = p[15:8]`. -/
def green (p : U32) : U8 := p.extractLsb' 8 8

/-- `B(p) = p[23:16]`. -/
def blue (p : U32) : U8 := p.extractLsb' 16 8

/-- `A(p) = p[31:24]`. -/
def alpha (p : U32) : U8 := p.extractLsb' 24 8

/-- An 8-bit channel narrowed to `w` bits by truncation, `c >> (8 - w)`, held in 16 bits (R78). -/
def narrow (w : Nat) (c : U8) : U16 := (c >>> (8 - w)).setWidth 16

/-! ## The contract at issue (R102) -/

/-- Check 1: no region passes 2^ADDR_W; the sums are exact. -/
def noWrap (c : Config) (S D : Region) : Bool :=
  decide (S.base + S.len ≤ c.space) && decide (D.base + D.len ≤ c.space)

/-- Check 2: the source region lies inside the lent input buffer and the destination region inside the lent output buffer. -/
def Lent.covers (l : Lent) (S D : Region) : Bool :=
  match l with
  | .exact => true
  | .buffers input output => S.inside input && D.inside output

/-- Check 4 against one channel: an idle channel conflicts with nothing; against a pass in flight, `D` overlaps neither of
its regions and `S` does not overlap its destination. `S` may overlap its source (R117). -/
def conflictsWith (s : State) (S D : Region) (j : Chan) : Bool :=
  match s.ch.get j with
  | none => false
  | some p => D.overlaps (p.srcRegion j) || D.overlaps (p.dstRegion j) || S.overlaps (p.dstRegion j)

/-- Check 4 against every channel other than `k`. -/
def conflict (s : State) (k : Chan) (S D : Region) : Bool :=
  Chan.all.any fun j => decide (j ≠ k) && conflictsWith s S D j

/-- The checks of R102 in their order (R195 (a)); the first that fails names the refusal. -/
def issueRefusal (s : State) (k : Chan) (o : Operands) : Option Refusal :=
  if !noWrap s.cfg (srcRegionOf k o) (dstRegionOf k o) then some .addressWrap
  else if !s.lent.covers (srcRegionOf k o) (dstRegionOf k o) then some .invalidBufferSize
  else if (srcRegionOf k o).overlaps (dstRegionOf k o) then some .bufferOverlap
  else if conflict s k (srcRegionOf k o) (dstRegionOf k o) then some .channelConflict
  else none

end Sys2Proof.Machine
end

