-- ==== Sys2Proof/Machine/Issue.lean ====
section
/-! DEFINITION. The issue step, shared by the five commands (40_pass_common.md R101 to R103). -/

namespace Sys2Proof.Machine

/-- The record an issue writes, R103: the descriptor's SRC and DST, N and index 0. -/
def newPass (o : Operands) : Pass := { src := o.src, dst := o.dst, n := pixelCount o, idx := 0 }

/-- The issue of a command for channel `k`. While the channel is busy the command is held: not accepted, not queued, not
dropped, not refused, so nothing changes (R101). Otherwise the contract is checked (R102) and `ch[k]` is written (R103). It
reads and writes no memory. -/
def issue (k : Chan) (o : Operands) (s : State) : Host.Outcome State Fault Refusal :=
  if s.busy k then .next s
  else
    match issueRefusal s k o with
    | some r => .refused r
    | none => .next (s.setCh k (some (newPass o)))

end Sys2Proof.Machine
end

