-- ==== Sys2Proof/Machine/Rgb565ToRgba5551.lean ====
section
/-! DEFINITION. Operation 5, RGB565 to RGBA5551 (45_rgb565_to_rgba5551.md; the formula wins over the prose, 90_conflicts.md
C2). -/

namespace Sys2Proof.Machine

/-- `stage5(q) = trunc_16((q << 1) | 1)`, R175: bit 15 is lost. -/
def stage5 (q : U16) : U16 := (q <<< 1) ||| 1#16

/-- `rgb565_to_rgba5551 SRC, DST, WIDTH, HEIGHT`, R176: the issue on channel 5; its pass applies `stage5`. -/
def execRgb565ToRgba5551 (o : Operands) (s : State) : Host.Outcome State Fault Refusal := issue .ch5 o s

end Sys2Proof.Machine
end

