-- ==== Sys2Proof/Machine/Rgba8ToLa88.lean ====
section
/-! DEFINITION. Operation 4, RGBA8 to LA88, with the luma arithmetic (44_rgba8_to_la88.md). -/

namespace Sys2Proof.Machine

/-- The numerator of R162, the weighted sum in ten-thousandths. -/
def lumaSum (r g b : U8) : Nat := 2126 * r.toNat + 7152 * g.toNat + 722 * b.toNat

/-- `floor((2126 R + 7152 G + 722 B) / 10000)`, R162: exact, one floor, after the sum. -/
def lumaExact (r g b : U8) : Nat := lumaSum r g b / 10000

/-- The value of `luma` in an arithmetic: R162's, or, where R164 lets a floating-point evaluation differ (the exact sum is a
whole number), one less at the inputs the configuration names. -/
def lumaIn (l : LumaArith) (r g b : U8) : Nat :=
  match l with
  | .exact => lumaExact r g b
  | .oneLowAt inputs =>
    if lumaSum r g b % 10000 = 0 ∧ (r, g, b) ∈ inputs then lumaExact r g b - 1 else lumaExact r g b

/-- `luma`, the named function of the configuration (R164; 92_eei_decisions.md D9), a byte: its value always fits (R165). -/
def luma (c : Config) (r g b : U8) : U8 := BitVec.ofNat 8 (lumaIn c.lumaArith r g b)

/-- `stage4(p) = (A << 8) | luma(R, G, B)`, R160. -/
def stage4 (c : Config) (p : U32) : U16 :=
  ((alpha p).setWidth 16 <<< 8) ||| (luma c (red p) (green p) (blue p)).setWidth 16

/-- `rgba8_to_la88 SRC, DST, WIDTH, HEIGHT`, R161: the issue on channel 4; its pass applies `stage4`. -/
def execRgba8ToLa88 (o : Operands) (s : State) : Host.Outcome State Fault Refusal := issue .ch4 o s

end Sys2Proof.Machine
end

