-- ==== Sys2Proof/Machine/Rgba8ToRgb565.lean ====
section
/-! DEFINITION. Operation 2, RGBA8 to RGB565 (42_rgba8_to_rgb565.md). -/

namespace Sys2Proof.Machine

/-- `stage2(p) = ((R >> 3) << 11) | ((G >> 2) << 5) | (B >> 3)`, R140. -/
def stage2 (p : U32) : U16 :=
  (narrow 5 (red p) <<< 11) ||| (narrow 6 (green p) <<< 5) ||| narrow 5 (blue p)

/-- `rgba8_to_rgb565 SRC, DST, WIDTH, HEIGHT`, R141: the issue on channel 2; its pass applies `stage2`. -/
def execRgba8ToRgb565 (o : Operands) (s : State) : Host.Outcome State Fault Refusal := issue .ch2 o s

end Sys2Proof.Machine
end

