-- ==== Sys2Proof/Machine/Rgba8ToRgb8.lean ====
section
/-! DEFINITION. Operation 1, RGBA8 to RGB8 (41_rgba8_to_rgb8.md). -/

namespace Sys2Proof.Machine

/-- `stage1(p) = p[23:0]`, R130: the three colour bytes unchanged, alpha discarded. -/
def stage1 (p : U32) : U24 := p.extractLsb' 0 24

/-- `rgba8_to_rgb8 SRC, DST, WIDTH, HEIGHT`, R131: the issue on channel 1; its pass applies `stage1`. -/
def execRgba8ToRgb8 (o : Operands) (s : State) : Host.Outcome State Fault Refusal := issue .ch1 o s

end Sys2Proof.Machine
end

