-- ==== Sys2Proof/Machine/Rgba8ToRgba4.lean ====
section
/-! DEFINITION. Operation 3, RGBA8 to RGBA4 (43_rgba8_to_rgba4.md). -/

namespace Sys2Proof.Machine

/-- `stage3(p) = ((R >> 4) << 12) | ((G >> 4) << 8) | ((B >> 4) << 4) | (A >> 4)`, R150. -/
def stage3 (p : U32) : U16 :=
  (narrow 4 (red p) <<< 12) ||| (narrow 4 (green p) <<< 8) ||| (narrow 4 (blue p) <<< 4) ||| narrow 4 (alpha p)

/-- `rgba8_to_rgba4 SRC, DST, WIDTH, HEIGHT`, R151: the issue on channel 3; its pass applies `stage3`. -/
def execRgba8ToRgba4 (o : Operands) (s : State) : Host.Outcome State Fault Refusal := issue .ch3 o s

end Sys2Proof.Machine
end

