-- ==== Sys2Proof/Machine/Dispatch.lean ====
section
/-! DEFINITION. One arm per command (30_encoding.md R87). -/

namespace Sys2Proof.Machine

-- The effect of presenting one command to the block: its issue step (R100 to R103). The pixel and retire steps of the pass it
-- starts are the channel's own steps (log 17).
def exec (i : Instr) (s : State) : Host.Outcome State Fault Refusal :=
  match i with
  | .rgba8ToRgb8 o => Sys2Proof.Machine.execRgba8ToRgb8 o s
  | .rgba8ToRgb565 o => Sys2Proof.Machine.execRgba8ToRgb565 o s
  | .rgba8ToRgba4 o => Sys2Proof.Machine.execRgba8ToRgba4 o s
  | .rgba8ToLa88 o => Sys2Proof.Machine.execRgba8ToLa88 o s
  | .rgb565ToRgba5551 o => Sys2Proof.Machine.execRgb565ToRgba5551 o s

end Sys2Proof.Machine
end

