-- ==== Sys2Proof/Machine/Channel.lean ====
section
/-! DEFINITION. A channel's own steps: the pixel step and the retire step (40_pass_common.md R104, R109). -/

namespace Sys2Proof.Machine

/-- The stage of each channel (00_scope.md R16): a pure function from one source pixel to one destination pixel. Operation 4
alone looks at the configuration, for its luma (R164). -/
def stage (c : Config) : (k : Chan) → BitVec (8 * k.srcBytes) → BitVec (8 * k.dstBytes)
  | .ch1 => stage1
  | .ch2 => stage2
  | .ch3 => stage3
  | .ch4 => stage4 c
  | .ch5 => stage5

/-- The memory after the pixel step of pass `p` on channel `k`: the source pixel is read, converted and written (R104). -/
def convertPixel (c : Config) (k : Chan) (p : Pass) (m : Memory) : Memory :=
  memWrite m (p.dstAddr k) k.dstBytes (stage c k (memRead m (p.srcAddr k) k.srcBytes))

/-- The pass after one pixel step: only the index moves, by one (R25, R104). -/
def Pass.advance (p : Pass) : Pass := { p with idx := p.idx + 1 }

/-- `PixelStep(k)`, R104, as one transition (log 14). A pixel that would pass 2^ADDR_W is refused (R192, log 11); R102 rules
that out for every pass that was accepted. -/
def pixelStep (k : Chan) (p : Pass) (s : State) : Host.Outcome State Fault Refusal :=
  if s.cfg.space < p.srcAddr k + k.srcBytes ∨ s.cfg.space < p.dstAddr k + k.dstBytes then .refused .addressWrap
  else .next { s.setCh k (some p.advance) with mem := convertPixel s.cfg k p s.mem }

/-- The retire step, R109: `busy <- 0` and `done(k)`. -/
def retire (k : Chan) (s : State) : State := (s.setCh k none).tell (.done k)

/-- The step of channel `k`: the pixel step while `idx < n` (R104), the retire step at `idx = n` (R109). An idle channel has
no step enabled, so its turn passes (log 4). `idx > n` is no reachable state (R26) and enables nothing. -/
def channelStep (k : Chan) (s : State) : Host.Outcome State Fault Refusal :=
  match s.ch.get k with
  | none => .next s
  | some p =>
    if p.idx < p.n then pixelStep k p s
    else if p.idx = p.n then .next (retire k s)
    else .next s

/-- Channel `k` has an enabled step (R104, R109). -/
def State.channelEnabled (s : State) (k : Chan) : Bool :=
  match s.ch.get k with
  | none => false
  | some p => decide (p.idx ≤ p.n)

end Sys2Proof.Machine
end

