-- ==== Sys2Proof/Machine/Reset.lean ====
section
/-! DEFINITION. The reset input (70_reset_and_hazards.md R220 to R223). -/

namespace Sys2Proof.Machine

/-- `len` bytes from address `a` become free draws, the draws numbered from `d` (R222). -/
def scramble (m : Memory) (a d : Nat) : Nat → Memory
  | 0 => m
  | len + 1 => scramble (m.write a (Config.freeByte d)) (a + 1) (d + 1) len

/-- Reset of one channel: a pass in flight is abandoned, every byte of its destination region becomes unspecified, and no
`done` is signalled (R222); an idle channel is left as it is (R221). -/
def resetChannel (s : State) (k : Chan) : State :=
  match s.ch.get k with
  | none => s
  | some p =>
    { s.setCh k none with
      mem   := scramble s.mem p.dst s.draws (p.n * k.dstBytes)
      draws := s.draws + p.n * k.dstBytes }

/-- The reset input asserted and released, as one transition (log 9): every channel idle (R220). -/
def resetBlock (s : State) : State := Chan.all.foldl resetChannel s

end Sys2Proof.Machine
end

