-- ==== Sys2Proof/Machine/HostSide.lean ====
section
/-! DEFINITION. The host's moves (40_pass_common.md R110, R111) under the lease rules (70_reset_and_hazards.md R226 to R229). -/

namespace Sys2Proof.Machine

/-- Some pass in flight reads the address: it is in a leased source region. -/
def State.leasedSrc (s : State) (a : Nat) : Bool :=
  Chan.all.any fun k => match s.ch.get k with
    | none => false
    | some p => (p.srcRegion k).has a

/-- Some pass in flight writes the address: it is in a leased destination region. -/
def State.leasedDst (s : State) (a : Nat) : Bool :=
  Chan.all.any fun k => match s.ch.get k with
    | none => false
    | some p => (p.dstRegion k).has a

/-- The host reads a byte. A leased destination region may not be read (R227); a leased source region may (R226). There is no
address at or above 2^ADDR_W (R40): no rule gives such a move a meaning, so it is refused (R192, log 11). -/
def hostRead (a : Nat) (s : State) : Host.Outcome State Fault Refusal :=
  if s.cfg.space ≤ a then .refused .addressWrap
  else if s.leasedDst a then .refused .leaseViolation
  else .next (s.tell (.byte a (s.mem.read a)))

/-- The host writes a byte. Neither leased region may be written (R226, R228); above 2^ADDR_W as for a read. -/
def hostWrite (a : Nat) (b : U8) (s : State) : Host.Outcome State Fault Refusal :=
  if s.cfg.space ≤ a then .refused .addressWrap
  else if s.leasedSrc a || s.leasedDst a then .refused .leaseViolation
  else .next { s with mem := s.mem.write a b }

/-- The host presents a command: the rest of its moves remain, and the buffers it lends to this command are in place
(R102). -/
def State.present (s : State) (lent : Lent) (rest : List HostMove) : State := { s with host := rest, lent := lent }

/-- The host presents a descriptor (R100, R101): `Reserved` is refused; a command for a busy channel is held at the port, so
it stays the host's next move; any other is issued. -/
def hostIssue (bits : Nat) (lent : Lent) (rest : List HostMove) (s : State) : Host.Outcome State Fault Refusal :=
  match decodeBits s.cfg bits with
  | .reserved => .refused .reservedEncoding
  | .cmd i => if s.busy (instrChan i) then .next s else exec i (s.present lent rest)

/-- The host's next move (R111). A move that is not enabled (a held command, a wait for a busy channel) stays, and the turn
passes (log 4). -/
def hostStep (s : State) : Host.Outcome State Fault Refusal :=
  match s.host with
  | [] => .next s
  | .issue bits lent :: rest => hostIssue bits lent rest s
  | .wait k :: rest => if s.busy k then .next s else .next { s with host := rest }
  | .status :: rest => .next ({ s with host := rest }.tell (.status s.status))
  | .read a :: rest => hostRead a { s with host := rest }
  | .write a b :: rest => hostWrite a b { s with host := rest }
  | .reset :: rest => .next (resetBlock { s with host := rest })

/-- The host has an enabled step: a command for a busy channel (R101) and a wait for one are not enabled. -/
def State.hostEnabled (s : State) : Bool :=
  match s.host with
  | [] => false
  | .issue bits _ :: _ => match decodeBits s.cfg bits with
    | .reserved => true
    | .cmd i => !s.busy (instrChan i)
  | .wait k :: _ => !s.busy k
  | .status :: _ => true
  | .read _ :: _ => true
  | .write _ _ :: _ => true
  | .reset :: _ => true

/-! ## Whose turn it is (R114) -/

/-- The agents with an enabled step. -/
def State.enabledAgents (s : State) : List Agent :=
  (if s.hostEnabled then [Agent.host] else []) ++ (Chan.all.filter s.channelEnabled).map Agent.channel

/-- An agent takes its turn. -/
def act : Agent → State → Host.Outcome State Fault Refusal
  | .host, s => hostStep s
  | .channel k, s => channelStep k s

/-- The free choice among two or more enabled agents (R114, U19, log 3). -/
def freeAgent (a b : Agent) (l : List Agent) (t : Nat) : Agent :=
  ((a :: b :: l)[Config.freeTurn t % (l.length + 2)]?).getD a

/-- No schedule is given: the only enabled agent steps, or one of several by a free choice, or, where none is enabled, the
block waits for its host and nothing changes (R121, log 5). -/
def freeStep (s : State) : Host.Outcome State Fault Refusal :=
  match s.enabledAgents with
  | [] => .next s
  | [a] => act a s
  | a :: b :: l => act (freeAgent a b l s.draws) { s with draws := s.draws + 1 }

end Sys2Proof.Machine
end

