-- ==== Sys2Proof/Machine/Step.lean ====
section
/-! DEFINITION. One step of the machine: one step of one agent (40_pass_common.md R94, R114). -/

namespace Sys2Proof.Machine

/-- The agent the schedule names takes its turn; where the schedule is used up, a free choice among the enabled agents is
made (R114, log 3). -/
def step (s : State) : Host.Outcome State Fault Refusal :=
  match s.schedule with
  | a :: rest => act a { s with schedule := rest }
  | [] => freeStep s

/-- `s` with the descriptor whose low `nbits` bits are `w` (the rest 0) as the host's next move, the host lending exactly the
regions it names, and the host's turn next: the load of a command from outside the block (log 15). -/
def State.withFetchWord (s : State) (nbits w : Nat) : State :=
  { s with
    host     := .issue (w % 2 ^ nbits) .exact :: s.host
    schedule := .host :: s.schedule }

end Sys2Proof.Machine
end

