-- ==== Sys2Proof/Safety.lean ====
section
/-! DEFINITION. What a safe run is, in the terms the statements use: the invariant of 10_state.md R34, the end of a run
(40_pass_common.md R121), the contract at issue said of addresses (R102), the progress of one pass (20_memory.md R58). -/

namespace Sys2Proof.Machine

/-- The invariant of R34, with the widths of the registers (R23), the canonical form of memory and its address space (R40). -/
structure State.Inv (s : State) : Prop where
  /-- Memory is in canonical form. -/
  memWf : s.mem.wf = true
  /-- Memory lists no address outside the address space (R40). -/
  memSpace : ∀ c ∈ s.mem, c.1 < s.cfg.space
  /-- `src` and `dst` have ADDR_W bits (R23). -/
  addrWidth : ∀ k p, s.ch.get k = some p → p.src < s.cfg.space ∧ p.dst < s.cfg.space
  /-- R34 (a), and the legal values of `n` (R23). -/
  indexBound : ∀ k p, s.ch.get k = some p → p.idx ≤ p.n ∧ p.n ≤ (2 ^ 32 - 1) ^ 2
  /-- R34 (b): both regions lie below 2^ADDR_W. -/
  regionSpace : ∀ k p, s.ch.get k = some p →
    p.src + p.n * k.srcBytes ≤ s.cfg.space ∧ p.dst + p.n * k.dstBytes ≤ s.cfg.space
  /-- R34 (b): the two regions of a pass do not overlap. -/
  ownDisjoint : ∀ k p, s.ch.get k = some p → (p.srcRegion k).overlaps (p.dstRegion k) = false
  /-- R34 (c): a destination region overlaps no region of another pass. -/
  pairDisjoint : ∀ j k p q, j ≠ k → s.ch.get j = some p → s.ch.get k = some q →
    (p.dstRegion j).overlaps (q.srcRegion k) = false ∧ (p.dstRegion j).overlaps (q.dstRegion k) = false

/-- Every channel is idle. -/
def State.allIdle (s : State) : Prop := ∀ k, s.ch.get k = none

/-- The end of a run, R121: the host has no further move and every channel is idle. (A refused run has no state.) -/
def State.final (s : State) : Prop := s.host = [] ∧ s.allIdle

/-- Steps one channel still has to take: `n - idx` pixel steps and the retire step (R119). -/
def State.workOf (s : State) (k : Chan) : Nat :=
  match s.ch.get k with
  | none => 0
  | some p => p.n - p.idx + 1

/-- Steps all channels together still have to take. -/
def State.work (s : State) : Nat :=
  s.workOf .ch1 + s.workOf .ch2 + s.workOf .ch3 + s.workOf .ch4 + s.workOf .ch5

/-- Pixel `i` of a pass on channel `k` from `src` to `dst` is converted: the destination pixel in `m` is the stage applied to
the source pixel in `m0` (R58). -/
def pixelConverted (c : Config) (k : Chan) (src dst i : Nat) (m0 m : Memory) : Prop :=
  memRead m (dst + i * k.dstBytes) k.dstBytes = stage c k (memRead m0 (src + i * k.srcBytes) k.srcBytes)

/-- The pass that channel `k` accepted in memory `m0`, with the given bases and count, is in flight in `s`: the pixels below
the index are converted (R30), and the source region still holds what it held at issue (R54). -/
structure PassUnderway (k : Chan) (src dst n : Nat) (m0 : Memory) (s : State) : Prop where
  inFlight : ∃ idx, s.ch.get k = some { src := src, dst := dst, n := n, idx := idx } ∧
    ∀ i, i < idx → pixelConverted s.cfg k src dst i m0 s.mem
  source : ∀ a, src ≤ a → a < src + n * k.srcBytes → s.mem.read a = m0.read a

/-- The same pass is done (R58, R109): its channel is idle and every pixel is converted. -/
def PassDone (k : Chan) (src dst n : Nat) (m0 : Memory) (s : State) : Prop :=
  s.ch.get k = none ∧ ∀ i, i < n → pixelConverted s.cfg k src dst i m0 s.mem

/-- Check 2 of R102 said of addresses: every address of `S` lies in the lent input buffer and every address of `D` in the lent
output buffer. -/
def Granted (l : Lent) (S D : Region) : Prop :=
  match l with
  | .exact => True
  | .buffers input output =>
    (∀ a, S.has a = true → input.has a = true) ∧ (∀ a, D.has a = true → output.has a = true)

/-- Check 3 of R102, and each part of check 4: the two regions share no address. -/
def Apart (r q : Region) : Prop := ∀ a, ¬ (r.has a = true ∧ q.has a = true)

/-- Check 4 of R102: against every other pass in flight, `D` shares no address with either of its regions and `S` none with
its destination region. -/
def NoConflict (s : State) (k : Chan) (S D : Region) : Prop :=
  ∀ j q, j ≠ k → s.ch.get j = some q →
    Apart D (q.srcRegion j) ∧ Apart D (q.dstRegion j) ∧ Apart S (q.dstRegion j)

/-- What the host must guarantee when it issues a command on channel `k`, R102, said of addresses. -/
structure Contract (s : State) (k : Chan) (o : Operands) : Prop where
  srcFits    : o.src + pixelCount o * k.srcBytes ≤ s.cfg.space
  dstFits    : o.dst + pixelCount o * k.dstBytes ≤ s.cfg.space
  granted    : Granted s.lent (srcRegionOf k o) (dstRegionOf k o)
  apart      : Apart (srcRegionOf k o) (dstRegionOf k o)
  noConflict : NoConflict s k (srcRegionOf k o) (dstRegionOf k o)

/-- `m` steps of the machine, stopping at the first refusal. -/
def run (m : Nat) (s : State) : Host.Outcome State Fault Refusal := Host.Core.run Sys2Proof.core m s

end Sys2Proof.Machine
end

