-- ==== Sys2Proof/Certificates/Slice0/Obligations.lean ====
section
/-! DEFINITION. The statements for the provers, from the numbered rules of spec/. -/

open Sys2Proof Sys2Proof.Machine

/-! ## Encoding -/

/-- R93: decoding is total on descriptors; CTRL alone chooses the operation, `Cmd(k = CTRL, SRC, DST, N = WIDTH * HEIGHT)` for
CTRL in 1 to 5, `Reserved` otherwise. -/
def Obligations.DecodingLooksAtCtrlAlone : Prop :=
  ∀ d : Descriptor,
    (d.ctrl.toNat = 1 → d.decode = .cmd (.rgba8ToRgb8 ⟨d.src, d.dst, d.width, d.height⟩)) ∧
    (d.ctrl.toNat = 2 → d.decode = .cmd (.rgba8ToRgb565 ⟨d.src, d.dst, d.width, d.height⟩)) ∧
    (d.ctrl.toNat = 3 → d.decode = .cmd (.rgba8ToRgba4 ⟨d.src, d.dst, d.width, d.height⟩)) ∧
    (d.ctrl.toNat = 4 → d.decode = .cmd (.rgba8ToLa88 ⟨d.src, d.dst, d.width, d.height⟩)) ∧
    (d.ctrl.toNat = 5 → d.decode = .cmd (.rgb565ToRgba5551 ⟨d.src, d.dst, d.width, d.height⟩)) ∧
    (¬ (1 ≤ d.ctrl.toNat ∧ d.ctrl.toNat ≤ 5) → d.decode = .reserved) ∧
    (∀ i, d.decode = .cmd i → i.op = d.ctrl.toNat ∧ i.operands.src = d.src ∧ i.operands.dst = d.dst ∧
      pixelCount i.operands = d.width.toNat * d.height.toNat)

/-- R88: OP 0, 6 or 7 with any upper bits, and OP 1 to 5 with any upper bit set, are reserved; the host's issue of one is
refused with ReservedEncoding, whatever the state. -/
def Obligations.ReservedDescriptorsAreRefused : Prop :=
  (∀ d : Descriptor, (d.ctrl.toNat % 8 = 0 ∨ d.ctrl.toNat % 8 = 6 ∨ d.ctrl.toNat % 8 = 7 ∨ d.ctrl.toNat / 8 ≠ 0) →
    d.decode = .reserved) ∧
  (∀ (s : State) (bits : Nat) (lent : Lent) (rest : List HostMove) (σ : List Agent),
    s.schedule = .host :: σ → s.host = .issue bits lent :: rest →
    ¬ (1 ≤ (Descriptor.ofBits s.cfg bits).ctrl.toNat ∧ (Descriptor.ofBits s.cfg bits).ctrl.toNat ≤ 5) →
    step s = .refused .reservedEncoding)

/-- Decode after encode, for every command, every ADDR_W and every operand value the encoding admits. The order of the words
within one number is the model's choice (log 2). -/
def Obligations.DecodeOfEncodeIsTheCommand : Prop :=
  ∀ (c : Config) (i : Instr), i.wf c = true → decodeBits c (encodeBits c i) = .cmd i

/-- Encode after decode: every descriptor of 96 + 2*ADDR_W bits that decodes to a command is that command's encoding, and the
command is well formed; no bit of it is ignored. -/
def Obligations.EncodeOfDecodeIsTheDescriptor : Prop :=
  ∀ (c : Config) (bits : Nat) (i : Instr), bits < 2 ^ (96 + 2 * c.addrW) → decodeBits c bits = .cmd i →
    encodeBits c i = bits ∧ i.wf c = true

/-- The five rows of the opcode table, and the reserved words of 95_test_vectors.md part 3, as control words. -/
def Obligations.TableWordsDecodeToTheirCommands : Prop :=
  decodeTableWord 32 0x00000001 = some (.rgba8ToRgb8 ⟨0, 0, 0, 0⟩) ∧
  decodeTableWord 32 0x00000002 = some (.rgba8ToRgb565 ⟨0, 0, 0, 0⟩) ∧
  decodeTableWord 32 0x00000003 = some (.rgba8ToRgba4 ⟨0, 0, 0, 0⟩) ∧
  decodeTableWord 32 0x00000004 = some (.rgba8ToLa88 ⟨0, 0, 0, 0⟩) ∧
  decodeTableWord 32 0x00000005 = some (.rgb565ToRgba5551 ⟨0, 0, 0, 0⟩) ∧
  decodeTableWord 32 0x00000000 = none ∧ decodeTableWord 32 0x00000006 = none ∧
  decodeTableWord 32 0x00000009 = none ∧ decodeTableWord 32 0x80000002 = none ∧
  decodeTableWord 32 0xFFFFFFFF = none

/-! ## The stages -/

/-- R130: `stage1(p) = p[23:0]`; R, G, B in order, A discarded. -/
def Obligations.Stage1KeepsTheColourBytes : Prop :=
  ∀ p : U32, (stage1 p).toNat = p.toNat % 2 ^ 24 ∧
    (stage1 p).extractLsb' 0 8 = red p ∧ (stage1 p).extractLsb' 8 8 = green p ∧ (stage1 p).extractLsb' 16 8 = blue p

/-- R140 bit by bit and as a sum of fields that do not overlap, and the mask form of R143. -/
def Obligations.Stage2PacksTopBits : Prop :=
  ∀ p : U32,
    (stage2 p).extractLsb' 11 5 = p.extractLsb' 3 5 ∧ (stage2 p).extractLsb' 5 6 = p.extractLsb' 10 6 ∧
    (stage2 p).extractLsb' 0 5 = p.extractLsb' 19 5 ∧
    (stage2 p).toNat = (red p).toNat / 8 * 2048 + (green p).toNat / 4 * 32 + (blue p).toNat / 8 ∧
    stage2 p = (((p &&& 0x000000F8#32) <<< 8) ||| ((p &&& 0x0000FC00#32) >>> 5) ||| ((p >>> 19) &&& 0x1F#32)).setWidth 16 ∧
    ((p &&& 0x000000F8#32) <<< 8) ||| ((p &&& 0x0000FC00#32) >>> 5) ||| ((p >>> 19) &&& 0x1F#32) < 0x10000#32

/-- R150 bit by bit and as a sum of fields that do not overlap, and the mask form of R153. -/
def Obligations.Stage3PacksTopNibbles : Prop :=
  ∀ p : U32,
    (stage3 p).extractLsb' 12 4 = p.extractLsb' 4 4 ∧ (stage3 p).extractLsb' 8 4 = p.extractLsb' 12 4 ∧
    (stage3 p).extractLsb' 4 4 = p.extractLsb' 20 4 ∧ (stage3 p).extractLsb' 0 4 = p.extractLsb' 28 4 ∧
    (stage3 p).toNat =
      (red p).toNat / 16 * 4096 + (green p).toNat / 16 * 256 + (blue p).toNat / 16 * 16 + (alpha p).toNat / 16 ∧
    stage3 p = (((p &&& 0x000000F0#32) <<< 8) ||| ((p &&& 0x0000F000#32) >>> 4) ||| ((p &&& 0x00F00000#32) >>> 16) |||
      (p >>> 28)).setWidth 16 ∧
    ((p &&& 0x000000F0#32) <<< 8) ||| ((p &&& 0x0000F000#32) >>> 4) ||| ((p &&& 0x00F00000#32) >>> 16) ||| (p >>> 28)
      < 0x10000#32

/-- R160: the luma byte low, the alpha byte high and unchanged, in every configuration; R162: luma, as the spec chooses it, is
the exact quotient, floored once after the sum, whose numerator is at most 2550000; R165: the exact sum lies between the least and
the greatest channel, so the value, in every configuration, fits 8 bits and its conversion never wraps. -/
def Obligations.Stage4IsLumaAndAlpha : Prop :=
  (∀ (c : Config) (p : U32), (stage4 c p).extractLsb' 0 8 = luma c (red p) (green p) (blue p) ∧
    (stage4 c p).extractLsb' 8 8 = alpha p ∧
    (stage4 c p).toNat = (alpha p).toNat * 256 + (luma c (red p) (green p) (blue p)).toNat) ∧
  Config.default.lumaArith = .exact ∧
  (∀ (c : Config) (r g b : U8), c.lumaArith = .exact →
    (luma c r g b).toNat = (2126 * r.toNat + 7152 * g.toNat + 722 * b.toNat) / 10000 ∧
    min r.toNat (min g.toNat b.toNat) ≤ (luma c r g b).toNat ∧ (luma c r g b).toNat ≤ max r.toNat (max g.toNat b.toNat)) ∧
  (∀ (c : Config) (r g b : U8),
    10000 * min r.toNat (min g.toNat b.toNat) ≤ 2126 * r.toNat + 7152 * g.toNat + 722 * b.toNat ∧
    2126 * r.toNat + 7152 * g.toNat + 722 * b.toNat ≤ 10000 * max r.toNat (max g.toNat b.toNat) ∧
    2126 * r.toNat + 7152 * g.toNat + 722 * b.toNat ≤ 2550000 ∧
    (2126 * r.toNat + 7152 * g.toNat + 722 * b.toNat) / 10000 ≤ 255 ∧
    (luma c r g b).toNat = lumaIn c.lumaArith r g b)

/-- R166, clauses (a) to (h), of luma with the body of R162; (c), (f), (g) and the upper bound of (b) hold of luma in every
configuration. -/
def Obligations.LumaLaws : Prop :=
  (∀ c : Config, c.lumaArith = .exact →
    (∀ v : U8, luma c v v v = v) ∧
    (∀ r g b : U8, min r.toNat (min g.toNat b.toNat) ≤ (luma c r g b).toNat) ∧
    (luma c 255 0 0 = 54 ∧ luma c 0 255 0 = 182 ∧ luma c 0 0 255 = 18) ∧
    (luma c 1 0 0 = 0 ∧ luma c 0 1 0 = 0 ∧ luma c 0 0 1 = 0 ∧ luma c 1 1 1 = 1 ∧ luma c 0 2 0 = 1 ∧ luma c 5 0 0 = 1 ∧
      luma c 4 0 0 = 0 ∧ luma c 0 0 14 = 1 ∧ luma c 0 0 13 = 0) ∧
    (∀ l a : U8, stage4 c (a ++ l ++ l ++ l : BitVec (8 + 8 + 8 + 8)) = (a ++ l : BitVec (8 + 8)))) ∧
  (∀ (c : Config) (r g b : U8), (luma c r g b).toNat ≤ max r.toNat (max g.toNat b.toNat)) ∧
  (∀ (c : Config) (r g b r' g' b' : U8), r ≤ r' → g ≤ g' → b ≤ b' → luma c r g b ≤ luma c r' g' b') ∧
  (∀ (c : Config) (p q : U32), red p = red q → green p = green q → blue p = blue q →
    (stage4 c p).extractLsb' 0 8 = (stage4 c q).extractLsb' 0 8) ∧
  (∀ (c : Config) (p q : U32), alpha p = alpha q → (stage4 c p).extractLsb' 8 8 = (stage4 c q).extractLsb' 8 8)

/-- R164: luma is a function of the configuration. In every configuration it is R162's value unless the exact sum is a whole
number, and there that value or one less, never more; every grey is such an input; and every evaluation that differs from R162 in
no other way is the luma of a configuration. How the configuration holds it is the model's choice (log 13). -/
def Obligations.LumaOfAConfigurationDiffersOnlyAtWholeSums : Prop :=
  (∀ (c : Config) (r g b : U8),
    (luma c r g b).toNat = lumaSum r g b / 10000 ∨
    (lumaSum r g b % 10000 = 0 ∧ (luma c r g b).toNat + 1 = lumaSum r g b / 10000)) ∧
  (∀ (c c' : Config) (p : U32), lumaSum (red p) (green p) (blue p) % 10000 ≠ 0 → stage4 c p = stage4 c' p) ∧
  (∀ v : U8, lumaSum v v v % 10000 = 0) ∧
  (∀ (w : Nat) (f : U8 → U8 → U8 → U8),
    (∀ r g b, (f r g b).toNat = lumaSum r g b / 10000 ∨
      (lumaSum r g b % 10000 = 0 ∧ (f r g b).toNat + 1 = lumaSum r g b / 10000)) →
    ∃ c : Config, c.addrW = w ∧ ∀ r g b, luma c r g b = f r g b)

/-- R175 bit by bit, the channel table of R177, and the laws of R180. -/
def Obligations.Stage5ShiftsTheWholeWord : Prop :=
  (∀ q : U16, (stage5 q).extractLsb' 1 15 = q.extractLsb' 0 15 ∧ (stage5 q).extractLsb' 0 1 = 1#1 ∧
    (stage5 q).toNat = (2 * q.toNat + 1) % 65536) ∧
  (∀ q : U16, (stage5 q).extractLsb' 11 5 = (q.extractLsb' 11 4 ++ q.extractLsb' 10 1 : BitVec (4 + 1)) ∧
    (stage5 q).extractLsb' 6 5 = q.extractLsb' 5 5 ∧ (stage5 q).extractLsb' 1 5 = q.extractLsb' 0 5 ∧
    (stage5 q).extractLsb' 0 1 = 1#1) ∧
  (∀ q : U16, stage5 q = stage5 (q ^^^ 0x8000#16)) ∧
  (∀ q q' : U16, stage5 q = stage5 q' ↔ q.extractLsb' 0 15 = q'.extractLsb' 0 15) ∧
  (∀ w : U16, (∃ q, stage5 q = w) ↔ w.toNat % 2 = 1) ∧
  (∀ w q : U16, w.toNat % 2 = 1 → (stage5 q = w ↔ q = w >>> 1 ∨ q = (w >>> 1) ||| 0x8000#16)) ∧
  (∀ q : U16, stage5 (stage5 q) = (q <<< 2) ||| 3#16) ∧
  (∃ q : U16, stage5 (stage5 q) ≠ stage5 q) ∧ (∃ q : U16, stage5 (stage5 q) ≠ q)

/-- Low bits and alpha that the narrowing operations drop influence nothing: R133 (a), R144 (a), (b), R154 (a). -/
def Obligations.DroppedBitsInfluenceNothing : Prop :=
  (∀ p q : U32, p.extractLsb' 0 24 = q.extractLsb' 0 24 → stage1 p = stage1 q) ∧
  (∀ p q : U32, p &&& 0x00F8FCF8#32 = q &&& 0x00F8FCF8#32 → stage2 p = stage2 q) ∧
  (∀ p q : U32, p &&& 0xF0F0F0F0#32 = q &&& 0xF0F0F0F0#32 → stage3 p = stage3 q)

/-! ## Memory -/

/-- R13: `MemRead` takes byte `j` of its value from `addr + j` and `MemWrite` puts byte `j` there, whatever the alignment
(R46); a write leaves every other byte alone, keeps memory in canonical form, and is read back whole. -/
def Obligations.MemoryPrimitivesAreLittleEndian : Prop :=
  ∀ (m : Memory) (a n : Nat), m.wf = true →
    (∀ j, j < n → (memRead m a n).extractLsb' (8 * j) 8 = m.read (a + j)) ∧
    (∀ v : BitVec (8 * n), (∀ j, j < n → (memWrite m a n v).read (a + j) = v.extractLsb' (8 * j) 8) ∧
      (∀ c, c < a ∨ a + n ≤ c → (memWrite m a n v).read c = m.read c) ∧
      (memWrite m a n v).wf = true ∧ memRead (memWrite m a n v) a n = v)

/-! ## The issue step -/

/-- R103: an idle channel under the contract accepts the command: `ch[k]` gets SRC, DST, N and index 0, and nothing else of
the state changes. One clause per command; each completes for every state and operands that meet the contract of R102. As long
as a pass is in flight its regions are leased. -/
def Obligations.CommandsAreAcceptedUnderTheContract : Prop :=
  (∀ (s : State) (k : Chan) (p : Pass), s.ch.get k = some p →
    (∀ a, (p.srcRegion k).has a = true → s.leasedSrc a = true) ∧
    (∀ a, (p.dstRegion k).has a = true → s.leasedDst a = true)) ∧
  ∀ (o : Operands) (s : State),
    (s.ch.get .ch1 = none → Contract s .ch1 o → exec (.rgba8ToRgb8 o) s =
      .next { s with ch := { s.ch with ch1 := some ⟨o.src, o.dst, o.width.toNat * o.height.toNat, 0⟩ } }) ∧
    (s.ch.get .ch2 = none → Contract s .ch2 o → exec (.rgba8ToRgb565 o) s =
      .next { s with ch := { s.ch with ch2 := some ⟨o.src, o.dst, o.width.toNat * o.height.toNat, 0⟩ } }) ∧
    (s.ch.get .ch3 = none → Contract s .ch3 o → exec (.rgba8ToRgba4 o) s =
      .next { s with ch := { s.ch with ch3 := some ⟨o.src, o.dst, o.width.toNat * o.height.toNat, 0⟩ } }) ∧
    (s.ch.get .ch4 = none → Contract s .ch4 o → exec (.rgba8ToLa88 o) s =
      .next { s with ch := { s.ch with ch4 := some ⟨o.src, o.dst, o.width.toNat * o.height.toNat, 0⟩ } }) ∧
    (s.ch.get .ch5 = none → Contract s .ch5 o → exec (.rgb565ToRgba5551 o) s =
      .next { s with ch := { s.ch with ch5 := some ⟨o.src, o.dst, o.width.toNat * o.height.toNat, 0⟩ } })

/-- R102 in the order of R195 (a): for an idle channel the first check that fails names the refusal, and the command is
accepted exactly when none fails; where N = 0 none fails. -/
def Obligations.FirstFailedCheckNamesTheRefusal : Prop :=
  ∀ (i : Instr) (s : State), s.ch.get (instrChan i) = none →
    let k := instrChan i
    let o := i.operands
    let S := srcRegionOf k o
    let D := dstRegionOf k o
    let fits := o.src + pixelCount o * k.srcBytes ≤ s.cfg.space ∧ o.dst + pixelCount o * k.dstBytes ≤ s.cfg.space
    (¬ fits → exec i s = .refused .addressWrap) ∧
    (fits → ¬ Granted s.lent S D → exec i s = .refused .invalidBufferSize) ∧
    (fits → Granted s.lent S D → ¬ Apart S D → exec i s = .refused .bufferOverlap) ∧
    (fits → Granted s.lent S D → Apart S D → ¬ NoConflict s k S D → exec i s = .refused .channelConflict) ∧
    (Contract s k o ↔ ∃ t, exec i s = .next t) ∧
    (i.wf s.cfg = true → pixelCount o = 0 → Contract s k o)

/-- R101: a command for a busy channel is held: not accepted, not dropped, not refused. The host's turn passes and the
command is still its next move. -/
def Obligations.CommandForABusyChannelIsHeld : Prop :=
  (∀ (i : Instr) (s : State), s.busy (instrChan i) = true → exec i s = .next s) ∧
  (∀ (s : State) (bits : Nat) (lent : Lent) (rest : List HostMove) (i : Instr) (σ : List Agent),
    s.schedule = .host :: σ → s.host = .issue bits lent :: rest → decodeBits s.cfg bits = .cmd i →
    s.busy (instrChan i) = true → step s = .next { s with schedule := σ })

/-- The frame of the five commands: an issue that answers a next state writes no field but the record of its own channel;
memory, the other channels, the host's record, the configuration and the draws are as before (R103). -/
def Obligations.IssueChangesOnlyItsChannelRecord : Prop :=
  ∀ (i : Instr) (s t : State), exec i s = .next t →
    (∀ a, t.mem.read a = s.mem.read a) ∧ t.mem = s.mem ∧ (∀ j, j ≠ instrChan i → t.ch.get j = s.ch.get j) ∧
    t.cfg = s.cfg ∧ t.host = s.host ∧ t.schedule = s.schedule ∧ t.lent = s.lent ∧ t.seen = s.seen ∧ t.draws = s.draws

/-- R9: the pixel count is the exact product, below 2^64, and only the product matters. -/
def Obligations.OnlyThePixelCountMatters : Prop :=
  ∀ (src dst : Nat) (w h w' h' : U32) (s : State),
    pixelCount ⟨src, dst, w, h⟩ = w.toNat * h.toNat ∧ w.toNat * h.toNat < 2 ^ 64 ∧
    (w.toNat * h.toNat = w'.toNat * h'.toNat →
      exec (.rgba8ToRgb8 ⟨src, dst, w, h⟩) s = exec (.rgba8ToRgb8 ⟨src, dst, w', h'⟩) s ∧
      exec (.rgba8ToRgb565 ⟨src, dst, w, h⟩) s = exec (.rgba8ToRgb565 ⟨src, dst, w', h'⟩) s ∧
      exec (.rgba8ToRgba4 ⟨src, dst, w, h⟩) s = exec (.rgba8ToRgba4 ⟨src, dst, w', h'⟩) s ∧
      exec (.rgba8ToLa88 ⟨src, dst, w, h⟩) s = exec (.rgba8ToLa88 ⟨src, dst, w', h'⟩) s ∧
      exec (.rgb565ToRgba5551 ⟨src, dst, w, h⟩) s = exec (.rgb565ToRgba5551 ⟨src, dst, w', h'⟩) s)

/-- R105: a command with N = 0 is accepted whatever its SRC and DST and whatever the host lent, takes no pixel step, touches
no memory, and retires. -/
def Obligations.ZeroSizeCommandTouchesNothing : Prop :=
  ∀ (i : Instr) (s : State), s.ch.get (instrChan i) = none → i.wf s.cfg = true →
    i.operands.width.toNat * i.operands.height.toNat = 0 →
    exec i s = .next (s.setCh (instrChan i) (some ⟨i.operands.src, i.operands.dst, 0, 0⟩)) ∧
    channelStep (instrChan i) (s.setCh (instrChan i) (some ⟨i.operands.src, i.operands.dst, 0, 0⟩)) =
      .next { s with seen := .done (instrChan i) :: s.seen }

/-! ## The channel's own steps -/

/-- R104: the pixel step, for each of the five channels. It reads the source pixel, writes the stage of it, advances the index,
and changes nothing else. -/
def Obligations.PixelStepConvertsOnePixel : Prop :=
  [Chan.ch1, .ch2, .ch3, .ch4, .ch5].map Chan.srcBytes = [4, 4, 4, 4, 2] ∧
  [Chan.ch1, .ch2, .ch3, .ch4, .ch5].map Chan.dstBytes = [3, 2, 2, 2, 2] ∧
  ∀ (k : Chan) (p : Pass) (s : State), s.mem.wf = true → s.ch.get k = some p → p.idx < p.n →
    p.src + p.n * k.srcBytes ≤ s.cfg.space → p.dst + p.n * k.dstBytes ≤ s.cfg.space →
    ∃ t, channelStep k s = .next t ∧
      t.ch.get k = some { p with idx := p.idx + 1 } ∧ (∀ j, j ≠ k → t.ch.get j = s.ch.get j) ∧
      memRead t.mem (p.dst + p.idx * k.dstBytes) k.dstBytes =
        stage s.cfg k (memRead s.mem (p.src + p.idx * k.srcBytes) k.srcBytes) ∧
      (∀ a, a < p.dst + p.idx * k.dstBytes ∨ p.dst + p.idx * k.dstBytes + k.dstBytes ≤ a →
        t.mem.read a = s.mem.read a) ∧
      t.mem.wf = true ∧ t.cfg = s.cfg ∧ t.host = s.host ∧ t.schedule = s.schedule ∧ t.lent = s.lent ∧
      t.seen = s.seen ∧ t.draws = s.draws

/-- R109: the retire step. `busy` falls, `done(k)` is signalled, the lease of the pass is over, and nothing else changes. -/
def Obligations.RetireSignalsDoneAndEndsTheLease : Prop :=
  ∀ (k : Chan) (p : Pass) (s : State), s.ch.get k = some p → p.idx = p.n →
    ∃ t, channelStep k s = .next t ∧ t.ch.get k = none ∧ t.seen = .done k :: s.seen ∧
      (∀ j, j ≠ k → t.ch.get j = s.ch.get j) ∧ t.mem = s.mem ∧ t.cfg = s.cfg ∧ t.host = s.host ∧
      t.schedule = s.schedule ∧ t.lent = s.lent ∧ t.draws = s.draws ∧
      (∀ a, t.leasedDst a = true ↔ ∃ j q, j ≠ k ∧ s.ch.get j = some q ∧ (q.dstRegion j).has a = true) ∧
      (∀ a, t.leasedSrc a = true ↔ ∃ j q, j ≠ k ∧ s.ch.get j = some q ∧ (q.srcRegion j).has a = true)

/-- R108: the value a pixel step writes depends only on the source bytes of its pixel: not on the index, the count, the bases,
the rest of memory or anything else of the state, the implementation's luma arithmetic apart (R164). -/
def Obligations.WrittenPixelDependsOnlyOnItsSourceBytes : Prop :=
  ∀ (k : Chan) (p q : Pass) (s s' t t' : State), s.mem.wf = true → s'.mem.wf = true →
    s.ch.get k = some p → s'.ch.get k = some q → p.idx < p.n → q.idx < q.n →
    (k = .ch4 → s.cfg.lumaArith = s'.cfg.lumaArith) →
    channelStep k s = .next t → channelStep k s' = .next t' →
    (∀ j, j < k.srcBytes → s.mem.read (p.src + p.idx * k.srcBytes + j) = s'.mem.read (q.src + q.idx * k.srcBytes + j)) →
    ∀ j, j < k.dstBytes → t.mem.read (p.dst + p.idx * k.dstBytes + j) = t'.mem.read (q.dst + q.idx * k.dstBytes + j)

/-- R112: sequencing never depends on pixel data. Whatever memory holds, a channel's turn has the same kind of outcome and the
same effect on everything but memory. -/
def Obligations.SequencingIgnoresPixelData : Prop :=
  ∀ (k : Chan) (s : State) (m : Memory),
    (∀ t, channelStep k s = .next t → ∃ m', channelStep k { s with mem := m } = .next { t with mem := m' }) ∧
    (∀ r, channelStep k s = .refused r → channelStep k { s with mem := m } = .refused r) ∧
    (∀ r, channelStep k s ≠ .fault r)

/-- R41: the block never writes outside a destination region in flight, and never writes the source region of any pass. -/
def Obligations.BlockWritesOnlyDestinationRegions : Prop :=
  ∀ (s t : State) (k : Chan), s.Inv → channelStep k s = .next t →
    (∀ a, (∀ j q, s.ch.get j = some q → (q.dstRegion j).has a = false) → t.mem.read a = s.mem.read a) ∧
    (∀ a j q, s.ch.get j = some q → (q.srcRegion j).has a = true → t.mem.read a = s.mem.read a) ∧
    (∀ a, (∀ q, s.ch.get k = some q → (q.dstRegion k).has a = false) → t.mem.read a = s.mem.read a)

/-- R24, R25: what may happen to a channel record in one step of the machine. A pass in flight keeps `src`, `dst` and `n`; its
index stays or grows by one; `busy` falls only by retiring at `idx = n` with `done(k)`, or by reset. An idle channel stays idle
or starts a pass at index 0. -/
def Obligations.ChannelRecordOnlyAdvances : Prop :=
  ∀ (s t : State) (k : Chan), step s = .next t →
    (∀ p, s.ch.get k = some p →
      t.ch.get k = some p ∨ (p.idx < p.n ∧ t.ch.get k = some { p with idx := p.idx + 1 }) ∨
      (t.ch.get k = none ∧ p.idx = p.n ∧ t.seen = .done k :: s.seen) ∨
      (t.ch.get k = none ∧ t.seen = s.seen ∧ ∃ rest, s.host = .reset :: rest ∧ t.host = rest)) ∧
    (s.ch.get k = none → t.ch.get k = none ∨
      ∃ p, t.ch.get k = some p ∧ p.idx = 0 ∧ ∃ bits lent rest, s.host = .issue bits lent :: rest ∧ t.host = rest)

/-! ## The host's moves -/

/-- The step runs the decoded command: when it is the host's turn, its next move presents a descriptor that decodes to a command
`i`, and the channel of `i` is idle, the step is `exec i` in the same state with the turn and the move taken and the lent
buffers in place (R100, R103). So it is, too, where no schedule is given and the host is the only agent with a step. -/
def Obligations.StepRunsTheDecodedCommand : Prop :=
  ∀ (s : State) (bits : Nat) (lent : Lent) (rest : List HostMove) (i : Instr),
    s.host = .issue bits lent :: rest → decodeBits s.cfg bits = .cmd i → s.ch.get (instrChan i) = none →
    (∀ σ, s.schedule = .host :: σ →
      step s = exec i { s with schedule := σ, host := rest, lent := lent }) ∧
    (s.schedule = [] → (∀ k, s.channelEnabled k = false) →
      step s = exec i { s with host := rest, lent := lent })

/-- `withFetchWord` makes the very next step run the command of the word (log 15). -/
def Obligations.FetchedWordIsRunNext : Prop :=
  ∀ (s : State) (nbits w : Nat) (i : Instr), decodeBits s.cfg (w % 2 ^ nbits) = .cmd i → s.ch.get (instrChan i) = none →
    step (s.withFetchWord nbits w) = exec i { s with lent := .exact }

/-- R110: reading STATUS gives the five busy bits and has no side effect but the host's record (log 10). -/
def Obligations.StatusReadGivesTheBusyBits : Prop :=
  ∀ (s : State) (rest : List HostMove), s.host = .status :: rest →
    ∃ v, hostStep s = .next { s with host := rest, seen := .status v :: s.seen } ∧
      ∀ k, v.bit k = true ↔ ∃ p, s.ch.get k = some p

/-- R111: a wait for channel `k` passes when the channel is idle; while it is busy the host stays at it. -/
def Obligations.WaitPassesWhenTheChannelIsIdle : Prop :=
  ∀ (s : State) (k : Chan) (rest : List HostMove), s.host = .wait k :: rest →
    (s.ch.get k = none → hostStep s = .next { s with host := rest }) ∧
    (∀ p, s.ch.get k = some p → hostStep s = .next s)

/-- R226, R227, R228: a host write to a leased source region, a host read of a leased destination region and a host write to one
are refused; the host may read a leased source region; an access to memory that is not leased has its plain effect. -/
def Obligations.LeaseRulesAreEnforced : Prop :=
  ∀ (s : State) (a : Nat) (rest : List HostMove), s.Inv → a < s.cfg.space →
    (∀ k p, s.ch.get k = some p → (p.srcRegion k).has a = true →
      (∀ b, s.host = .write a b :: rest → hostStep s = .refused .leaseViolation) ∧
      (s.host = .read a :: rest →
        hostStep s = .next { s with host := rest, seen := .byte a (s.mem.read a) :: s.seen })) ∧
    (∀ k p, s.ch.get k = some p → (p.dstRegion k).has a = true →
      (∀ b, s.host = .write a b :: rest → hostStep s = .refused .leaseViolation) ∧
      (s.host = .read a :: rest → hostStep s = .refused .leaseViolation)) ∧
    ((∀ k p, s.ch.get k = some p → (p.srcRegion k).has a = false ∧ (p.dstRegion k).has a = false) →
      (s.host = .read a :: rest →
        hostStep s = .next { s with host := rest, seen := .byte a (s.mem.read a) :: s.seen }) ∧
      (∀ b, s.host = .write a b :: rest → ∃ t, hostStep s = .next t ∧ t = { s with host := rest, mem := t.mem } ∧
        ∀ c, t.mem.read c = if c = a then b else s.mem.read c))

/-- R220, R222: the reset input makes every channel idle, signals no `done`, turns every byte of the destination region of a pass
in flight into a free draw, leaves every other byte as it was, and ends every lease. The rest of the state is the host's and
stays; that the input is asserted and released in one transition is the model's choice (log 9). -/
def Obligations.ResetIdlesEveryChannel : Prop :=
  ∀ (s : State) (rest : List HostMove), s.mem.wf = true → s.host = .reset :: rest →
    ∃ t, hostStep s = .next t ∧ (∀ k, t.ch.get k = none) ∧ t.seen = s.seen ∧ t.host = rest ∧ t.cfg = s.cfg ∧
      t.schedule = s.schedule ∧ t.lent = s.lent ∧
      (∀ a, (∀ k p, s.ch.get k = some p → (p.dstRegion k).has a = false) → t.mem.read a = s.mem.read a) ∧
      (∀ a k p, s.ch.get k = some p → (p.dstRegion k).has a = true → ∃ d, t.mem.read a = Config.freeByte d) ∧
      (∀ a, t.leasedSrc a = false ∧ t.leasedDst a = false)

/-- R221: reset with every channel idle changes nothing but that the host has made its move. -/
def Obligations.ResetWhenIdleChangesNothing : Prop :=
  ∀ (s : State) (rest : List HostMove), (∀ k, s.ch.get k = none) → s.host = .reset :: rest →
    hostStep s = .next { s with host := rest }

/-- R230: a conversion chained from RGBA8 over RGB565 to RGBA5551 without a wait is refused; once channel 2 has retired it is
accepted. -/
def Obligations.ChainedConversionNeedsAWait : Prop :=
  ∀ (s : State) (p : Pass) (o : Operands), s.ch.get .ch2 = some p → s.ch.get .ch5 = none →
    0 < p.n → o.src = p.dst → pixelCount o = p.n →
    o.src + 2 * pixelCount o ≤ s.cfg.space → o.dst + 2 * pixelCount o ≤ s.cfg.space →
    Granted s.lent (srcRegionOf .ch5 o) (dstRegionOf .ch5 o) → Apart (srcRegionOf .ch5 o) (dstRegionOf .ch5 o) →
    exec (.rgb565ToRgba5551 o) s = .refused .channelConflict ∧
    (NoConflict (retire .ch2 s) .ch5 (srcRegionOf .ch5 o) (dstRegionOf .ch5 o) →
      ∃ t, exec (.rgb565ToRgba5551 o) (retire .ch2 s) = .next t ∧ t.busy .ch5 = true)

/-- R231: a command whose source and destination share an address, even one, is refused with BufferOverlap; so no command
converts in place, for any of the five operations. -/
def Obligations.InPlaceConversionIsRefused : Prop :=
  ∀ (i : Instr) (s : State), s.ch.get (instrChan i) = none →
    let S := srcRegionOf (instrChan i) i.operands
    let D := dstRegionOf (instrChan i) i.operands
    S.base + S.len ≤ s.cfg.space → D.base + D.len ≤ s.cfg.space → Granted s.lent S D →
    ((∃ a, S.has a = true ∧ D.has a = true) → exec i s = .refused .bufferOverlap) ∧
    (i.operands.dst = i.operands.src → 0 < pixelCount i.operands → exec i s = .refused .bufferOverlap)

/-- R121: in a final state with no schedule left nothing happens until the host moves (log 5). -/
def Obligations.FinalStateWaitsForTheHost : Prop :=
  ∀ s : State, s.final → s.schedule = [] → step s = .next s

/-! ## The whole machine -/

/-- The reset state meets the invariant; every channel is idle in it (R33, R220). -/
def Obligations.ResetStateIsIdleAndInvariant : Prop :=
  State.reset.Inv ∧ State.reset.allIdle ∧ (∀ k, State.reset.status.bit k = false)

/-- The invariant of R34 is kept by every step of every agent, from every state that meets it. -/
def Obligations.EveryStepKeepsTheInvariant : Prop :=
  ∀ s t : State, s.Inv → step s = .next t → t.Inv ∧ t.cfg = s.cfg

/-- R34: (a), (b) and (c) hold in every state reachable from reset without a refusal, for every ADDR_W, every memory the host
starts with, every program of the host and every schedule. -/
def Obligations.ReachableStatesMeetR34 : Prop :=
  ∀ (c : Config) (mem : Memory) (host : List HostMove) (schedule : List Agent) (m : Nat) (t : State),
    mem.wf = true → (∀ x ∈ mem, x.1 < c.space) →
    run m { State.reset with cfg := c, mem := mem, host := host, schedule := schedule } = .next t →
    (∀ k p, t.ch.get k = some p → p.idx ≤ p.n) ∧
    (∀ k p, t.ch.get k = some p → Apart (p.srcRegion k) (p.dstRegion k) ∧
      p.src + p.n * k.srcBytes ≤ 2 ^ c.addrW ∧ p.dst + p.n * k.dstBytes ≤ 2 ^ c.addrW) ∧
    (∀ j k p q, j ≠ k → t.ch.get j = some p → t.ch.get k = some q →
      Apart (p.dstRegion j) (q.srcRegion k) ∧ Apart (p.dstRegion j) (q.dstRegion k))

/-- From a state that meets the invariant, a channel's turn always answers a next state: it never faults and never refuses (R26,
R190). The host's move to an address that does not exist is refused; under which name is the model's choice (log 11). -/
def Obligations.ChannelsNeverFault : Prop :=
  ∀ s : State, s.Inv →
    (∀ k, ∃ t, channelStep k s = .next t) ∧
    (∀ r, step s ≠ .fault r) ∧
    (∀ a rest, s.cfg.space ≤ a →
      (s.host = .read a :: rest → hostStep s = .refused .addressWrap) ∧
      (∀ b, s.host = .write a b :: rest → hostStep s = .refused .addressWrap))

/-- R192: a refusal has one of the six reasons of the closed list and nothing faults, in any state. In a state that meets the
invariant only the host's next move is refused, and each reason for the cases of its row: a descriptor with a reserved CTRL; a
command that fails a check of R102; an access against the lease. The row of AddressWrap also takes the host's access to an address
that does not exist (log 11). -/
def Obligations.EveryRefusalIsOfTheClosedList : Prop :=
  (∀ (s : State) (r : Refusal), step s = .refused r →
    r = .reservedEncoding ∨ r = .addressWrap ∨ r = .invalidBufferSize ∨ r = .bufferOverlap ∨ r = .channelConflict ∨
      r = .leaseViolation) ∧
  (∀ (s : State) (r : Fault), step s ≠ .fault r) ∧
  (∀ (s : State) (r : Refusal), s.Inv → step s = .refused r →
    (∃ bits lent rest, s.host = .issue bits lent :: rest ∧ decodeBits s.cfg bits = .reserved ∧ r = .reservedEncoding) ∨
    (∃ bits lent rest i, s.host = .issue bits lent :: rest ∧ decodeBits s.cfg bits = .cmd i ∧
      s.ch.get (instrChan i) = none ∧ ¬ Contract { s with lent := lent } (instrChan i) i.operands ∧
      exec i { s with host := rest, lent := lent } = .refused r) ∨
    (∃ a rest, s.cfg.space ≤ a ∧ (s.host = .read a :: rest ∨ ∃ b, s.host = .write a b :: rest) ∧ r = .addressWrap) ∨
    (∃ a rest k p, a < s.cfg.space ∧ s.ch.get k = some p ∧ r = .leaseViolation ∧
      ((p.dstRegion k).has a = true ∧ (s.host = .read a :: rest ∨ ∃ b, s.host = .write a b :: rest) ∨
       (p.srcRegion k).has a = true ∧ ∃ b, s.host = .write a b :: rest)))

/-- R58, for every schedule and whatever else the host does: the pass a channel accepted in memory `m0` stays under way, each
converted pixel the stage of the source pixel at issue, until it retires with `done(k)` and every pixel converted, or a reset
cuts it short. -/
def Obligations.PassProgressesUntilDoneOrReset : Prop :=
  ∀ (k : Chan) (src dst n : Nat) (m0 : Memory) (s t : State), s.Inv → PassUnderway k src dst n m0 s → step s = .next t →
    PassUnderway k src dst n m0 t ∨
    (PassDone k src dst n m0 t ∧ t.seen = .done k :: s.seen) ∨
    (t.allIdle ∧ t.seen = s.seen ∧ ∃ rest, s.host = .reset :: rest ∧ t.host = rest)

/-- An accepted command's pass is under way from its issue, in the memory at issue (R58, R103). -/
def Obligations.IssueStartsThePass : Prop :=
  ∀ (i : Instr) (s t : State), s.ch.get (instrChan i) = none → exec i s = .next t →
    PassUnderway (instrChan i) i.operands.src i.operands.dst (pixelCount i.operands) s.mem t

/-- R58, R120 for passes the host leaves alone: however the remaining turns fall, once every channel is idle each remaining pixel
of every pass in flight is converted, and every byte outside the remaining destination pixels is as it was. -/
def Obligations.DrainedPassesHaveConvertedEveryPixel : Prop :=
  ∀ (s t : State) (m : Nat), s.Inv → s.host = [] → run m s = .next t → t.allIdle →
    (∀ k p, s.ch.get k = some p → ∀ i, p.idx ≤ i → i < p.n → pixelConverted s.cfg k p.src p.dst i s.mem t.mem) ∧
    (∀ a, (∀ k p, s.ch.get k = some p → ¬ (p.dst + p.idx * k.dstBytes ≤ a ∧ a < p.dst + p.n * k.dstBytes)) →
      t.mem.read a = s.mem.read a)

/-- R115, first half: steps of different channels commute. Only the order in which two `done` events stand in the host's record
can differ. -/
def Obligations.StepsOfDifferentChannelsCommute : Prop :=
  ∀ (s a b c d : State) (j k : Chan), s.Inv → j ≠ k →
    channelStep j s = .next a → channelStep k a = .next b →
    channelStep k s = .next c → channelStep j c = .next d →
    b.ch = d.ch ∧ b.mem = d.mem ∧ b.cfg = d.cfg ∧ b.host = d.host ∧ b.schedule = d.schedule ∧ b.lent = d.lent ∧
      b.draws = d.draws ∧ b.seen.Perm d.seen

/-- R115, second half: the memory after all passes have retired is the same for every schedule, every free choice and every
number of steps it took. -/
def Obligations.FinalMemoryIsTheSameForEverySchedule : Prop :=
  ∀ (s t u : State) (σ τ : List Agent) (d e m n : Nat), s.Inv → s.host = [] →
    run m { s with schedule := σ, draws := d } = .next t → t.allIdle →
    run n { s with schedule := τ, draws := e } = .next u → u.allIdle →
    t.mem = u.mem

/-- R119, R235: with no further move of the host, the passes in flight take exactly their remaining pixel and retire steps, in
any order the free choice makes of them, and then every channel is idle; no channel is idle any sooner than its own steps
allow. -/
def Obligations.EveryPassCompletes : Prop :=
  ∀ s : State, s.Inv → s.host = [] → s.schedule = [] →
    (∃ t, run s.work s = .next t ∧ t.final ∧ t.schedule = []) ∧
    (∀ m t, run m s = .next t → t.work = s.work - m)

/-- R119, R235 for any list of turns, in the bounded form of weak fairness (log 20): whatever turns stand between, a channel given
as many turns as it has steps left is idle at the end, and no turn stops the run. -/
def Obligations.EnoughTurnsFinishAPass : Prop :=
  ∀ (k : Chan) (s : State) (σ : List Agent), s.Inv → s.host = [] → s.workOf k ≤ σ.count (.channel k) →
    ∃ t, run σ.length { s with schedule := σ } = .next t ∧ t.ch.get k = none ∧ t.schedule = [] ∧ t.Inv

/-- R119: a pass with N pixels left is exactly N pixel steps and one retire step, counted in its channel's turns. -/
def Obligations.PassTakesExactlyItsSteps : Prop :=
  ∀ (k : Chan) (p : Pass) (s : State) (σ : List Agent), s.Inv → s.ch.get k = some p →
    (∀ m, m ≤ p.n - p.idx → ∃ t, run m { s with schedule := List.replicate m (.channel k) ++ σ } = .next t ∧
      t.ch.get k = some { p with idx := p.idx + m } ∧ t.seen = s.seen ∧ t.schedule = σ) ∧
    (∃ t, run (p.n - p.idx + 1) { s with schedule := List.replicate (p.n - p.idx + 1) (.channel k) ++ σ } = .next t ∧
      t.ch.get k = none ∧ t.seen = .done k :: s.seen ∧ t.schedule = σ)

/-- R118: the bytes a pass writes are a function of the operation and the source bytes at issue, and of nothing else: two passes
of one operation with the same source bytes, in any two machines (any ADDR_W, addresses, other passes, destination contents,
schedules, free choices), write the same bytes. For operation 4 the two
machines have the same luma arithmetic (R164). -/
def Obligations.PassOutputDependsOnSourceBytesOnly : Prop :=
  ∀ (k : Chan) (p q : Pass) (s s' t t' : State) (m m' : Nat), s.Inv → s'.Inv → s.host = [] → s'.host = [] →
    (k = .ch4 → s.cfg.lumaArith = s'.cfg.lumaArith) →
    s.ch.get k = some p → s'.ch.get k = some q → p.idx = 0 → q.idx = 0 → p.n = q.n →
    (∀ j, j < p.n * k.srcBytes → s.mem.read (p.src + j) = s'.mem.read (q.src + j)) →
    run m s = .next t → t.allIdle → run m' s' = .next t' → t'.allIdle →
    ∀ j, j < p.n * k.dstBytes → t.mem.read (p.dst + j) = t'.mem.read (q.dst + j)

/-! ## One whole pass of each operation

From the issue, through exactly N pixel steps and one retire step of the channel, for every state and operands that meet the
contract. `u` is the state at `done`. -/

/-- R131, R132: operation 1. -/
def Obligations.PassOfRgba8ToRgb8 : Prop :=
  ∀ (o : Operands) (s : State) (σ : List Agent), s.mem.wf = true → s.ch.get .ch1 = none → Contract s .ch1 o →
    let N := o.width.toNat * o.height.toNat
    ∃ t u, exec (.rgba8ToRgb8 o) s = .next t ∧
      run (N + 1) { t with schedule := List.replicate (N + 1) (.channel .ch1) ++ σ } = .next u ∧
      u = { s with schedule := σ, seen := .done .ch1 :: s.seen, mem := u.mem } ∧ u.mem.wf = true ∧
      (∀ i, i < N → u.mem.read (o.dst + 3 * i) = s.mem.read (o.src + 4 * i) ∧
        u.mem.read (o.dst + 3 * i + 1) = s.mem.read (o.src + 4 * i + 1) ∧
        u.mem.read (o.dst + 3 * i + 2) = s.mem.read (o.src + 4 * i + 2)) ∧
      (∀ j, j < 3 * N → u.mem.read (o.dst + j) = s.mem.read (o.src + (4 * (j / 3) + j % 3))) ∧
      (∀ a, a < o.dst ∨ o.dst + 3 * N ≤ a → u.mem.read a = s.mem.read a)

/-- R141, R142: operation 2. -/
def Obligations.PassOfRgba8ToRgb565 : Prop :=
  ∀ (o : Operands) (s : State) (σ : List Agent), s.mem.wf = true → s.ch.get .ch2 = none → Contract s .ch2 o →
    let N := o.width.toNat * o.height.toNat
    ∃ t u, exec (.rgba8ToRgb565 o) s = .next t ∧
      run (N + 1) { t with schedule := List.replicate (N + 1) (.channel .ch2) ++ σ } = .next u ∧
      u = { s with schedule := σ, seen := .done .ch2 :: s.seen, mem := u.mem } ∧ u.mem.wf = true ∧
      (∀ i, i < N →
        let r := s.mem.read (o.src + 4 * i)
        let g := s.mem.read (o.src + 4 * i + 1)
        let b := s.mem.read (o.src + 4 * i + 2)
        u.mem.read (o.dst + 2 * i) = (((g >>> 2) &&& 0x07#8) <<< 5) ||| (b >>> 3) ∧
        u.mem.read (o.dst + 2 * i + 1) = ((r >>> 3) <<< 3) ||| (g >>> 5)) ∧
      (∀ a, a < o.dst ∨ o.dst + 2 * N ≤ a → u.mem.read a = s.mem.read a)

/-- R151, R152: operation 3. -/
def Obligations.PassOfRgba8ToRgba4 : Prop :=
  ∀ (o : Operands) (s : State) (σ : List Agent), s.mem.wf = true → s.ch.get .ch3 = none → Contract s .ch3 o →
    let N := o.width.toNat * o.height.toNat
    ∃ t u, exec (.rgba8ToRgba4 o) s = .next t ∧
      run (N + 1) { t with schedule := List.replicate (N + 1) (.channel .ch3) ++ σ } = .next u ∧
      u = { s with schedule := σ, seen := .done .ch3 :: s.seen, mem := u.mem } ∧ u.mem.wf = true ∧
      (∀ i, i < N →
        let r := s.mem.read (o.src + 4 * i)
        let g := s.mem.read (o.src + 4 * i + 1)
        let b := s.mem.read (o.src + 4 * i + 2)
        let a := s.mem.read (o.src + 4 * i + 3)
        u.mem.read (o.dst + 2 * i) = (b &&& 0xF0#8) ||| (a >>> 4) ∧
        u.mem.read (o.dst + 2 * i + 1) = (r &&& 0xF0#8) ||| (g >>> 4)) ∧
      (∀ a, a < o.dst ∨ o.dst + 2 * N ≤ a → u.mem.read a = s.mem.read a)

/-- R161, R167, R168: operation 4, with the configuration's luma; with the body of R162 the value it gives. -/
def Obligations.PassOfRgba8ToLa88 : Prop :=
  ∀ (o : Operands) (s : State) (σ : List Agent), s.mem.wf = true → s.ch.get .ch4 = none → Contract s .ch4 o →
    let N := o.width.toNat * o.height.toNat
    ∃ t u, exec (.rgba8ToLa88 o) s = .next t ∧
      run (N + 1) { t with schedule := List.replicate (N + 1) (.channel .ch4) ++ σ } = .next u ∧
      u = { s with schedule := σ, seen := .done .ch4 :: s.seen, mem := u.mem } ∧ u.mem.wf = true ∧
      (∀ i, i < N →
        let r := s.mem.read (o.src + 4 * i)
        let g := s.mem.read (o.src + 4 * i + 1)
        let b := s.mem.read (o.src + 4 * i + 2)
        u.mem.read (o.dst + 2 * i) = luma s.cfg r g b ∧
        (s.cfg.lumaArith = .exact →
          (u.mem.read (o.dst + 2 * i)).toNat = (2126 * r.toNat + 7152 * g.toNat + 722 * b.toNat) / 10000) ∧
        u.mem.read (o.dst + 2 * i + 1) = s.mem.read (o.src + 4 * i + 3)) ∧
      (∀ a, a < o.dst ∨ o.dst + 2 * N ≤ a → u.mem.read a = s.mem.read a)

/-- R176, R179: operation 5. -/
def Obligations.PassOfRgb565ToRgba5551 : Prop :=
  ∀ (o : Operands) (s : State) (σ : List Agent), s.mem.wf = true → s.ch.get .ch5 = none → Contract s .ch5 o →
    let N := o.width.toNat * o.height.toNat
    ∃ t u, exec (.rgb565ToRgba5551 o) s = .next t ∧
      run (N + 1) { t with schedule := List.replicate (N + 1) (.channel .ch5) ++ σ } = .next u ∧
      u = { s with schedule := σ, seen := .done .ch5 :: s.seen, mem := u.mem } ∧ u.mem.wf = true ∧
      (∀ i, i < N →
        let lo := s.mem.read (o.src + 2 * i)
        let hi := s.mem.read (o.src + 2 * i + 1)
        u.mem.read (o.dst + 2 * i) = (lo <<< 1) ||| 1#8 ∧
        u.mem.read (o.dst + 2 * i + 1) = (hi <<< 1) ||| (lo >>> 7)) ∧
      (∀ a, a < o.dst ∨ o.dst + 2 * N ≤ a → u.mem.read a = s.mem.read a)

/-- R118, R50: running the same command a second time, nothing having changed its source region, writes the same bytes again:
memory and every channel record are as after the first run. -/
def Obligations.RepeatingACommandWritesTheSameBytes : Prop :=
  ∀ (i : Instr) (s : State) (σ : List Agent), s.mem.wf = true → s.ch.get (instrChan i) = none →
    Contract s (instrChan i) i.operands →
    let k := instrChan i
    let N := i.operands.width.toNat * i.operands.height.toNat
    ∃ t u v w, exec i s = .next t ∧
      run (N + 1) { t with schedule := List.replicate (N + 1) (.channel k) ++ σ } = .next u ∧
      exec i u = .next v ∧
      run (N + 1) { v with schedule := List.replicate (N + 1) (.channel k) ++ σ } = .next w ∧
      w.mem = u.mem ∧ w.ch = u.ch ∧ w.seen = .done k :: .done k :: s.seen
end

