-- ==== Sys2Proof/Laws/Decode.lean ====
section
/-! SUPPORT. Decoding and encoding at the level of the five fields of a descriptor (30_encoding.md R80 to R93). -/

namespace Sys2Proof

/-- A descriptor that decodes to a command is that command's encoding: decoding drops no field. -/
theorem Descriptor.encode_of_decode {d : Descriptor} {i : Instr} (h : d.decode = .cmd i) : i.encode = d := by
  obtain ⟨ctrl, src, dst, width, height⟩ := d
  have back : ∀ n, ctrl.toNat = n → BitVec.ofNat 32 n = ctrl := fun n hn => by rw [← hn]; simp
  unfold Descriptor.decode at h
  dsimp only at h
  split at h
  case h_1 e => cases h; simp only [Instr.encode, Instr.op, Instr.operands, back 1 e]
  case h_2 e => cases h; simp only [Instr.encode, Instr.op, Instr.operands, back 2 e]
  case h_3 e => cases h; simp only [Instr.encode, Instr.op, Instr.operands, back 3 e]
  case h_4 e => cases h; simp only [Instr.encode, Instr.op, Instr.operands, back 4 e]
  case h_5 e => cases h; simp only [Instr.encode, Instr.op, Instr.operands, back 5 e]
  case h_6 => cases h

theorem bitField_lt (bits lo len : Nat) : bitField bits lo len < 2 ^ len := Nat.mod_lt _ (Nat.two_pow_pos len)

/-- The port delivers address fields of ADDR_W bits (R82). -/
theorem Descriptor.ofBits_src_lt (c : Config) (bits : Nat) : (Descriptor.ofBits c bits).src < c.space :=
  bitField_lt _ _ _

theorem Descriptor.ofBits_dst_lt (c : Config) (bits : Nat) : (Descriptor.ofBits c bits).dst < c.space :=
  bitField_lt _ _ _

/-- A command that comes through the port is well formed. -/
theorem wf_of_decodeBits {c : Config} {bits : Nat} {i : Instr} (h : decodeBits c bits = .cmd i) : i.wf c = true := by
  have e := Descriptor.encode_of_decode h
  have h1 := Descriptor.ofBits_src_lt c bits
  have h2 := Descriptor.ofBits_dst_lt c bits
  rw [← e] at h1 h2
  exact Bool.and_eq_true_iff.2 ⟨decide_eq_true h1, decide_eq_true h2⟩

end Sys2Proof
end

