-- ==== Sys2Proof/Laws/Luma.lean ====
section
/-! SUPPORT. What luma can be, in any configuration (44_rgba8_to_la88.md R162, R164, R165). -/

namespace Sys2Proof.Machine

@[simp] theorem lumaIn_exact (r g b : U8) : lumaIn .exact r g b = lumaExact r g b := rfl

/-- R162's value, or, at a whole sum only, one less (R164). -/
theorem lumaIn_cases (l : LumaArith) (r g b : U8) :
    lumaIn l r g b = lumaExact r g b ∨ (lumaSum r g b % 10000 = 0 ∧ lumaIn l r g b = lumaExact r g b - 1) := by
  cases l with
  | exact => exact .inl rfl
  | oneLowAt inputs =>
    simp only [lumaIn]
    split_ifs with h
    · exact .inr ⟨h.1, rfl⟩
    · exact .inl rfl

/-- The numerator is at most 2550000 (R162). -/
theorem lumaSum_le (r g b : U8) : lumaSum r g b ≤ 2550000 := by
  have := r.isLt
  have := g.isLt
  have := b.isLt
  unfold lumaSum
  omega

/-- The value fits the 8-bit field, so the conversion never wraps (R165). -/
theorem luma_toNat (c : Config) (r g b : U8) : (luma c r g b).toNat = lumaIn c.lumaArith r g b := by
  have h := lumaSum_le r g b
  have h' : lumaIn c.lumaArith r g b ≤ lumaExact r g b := by
    rcases lumaIn_cases c.lumaArith r g b with e | ⟨-, e⟩ <;> omega
  unfold lumaExact at h'
  rw [luma, BitVec.toNat_ofNat, Nat.mod_eq_of_lt]
  omega

end Sys2Proof.Machine
end

