-- ==== Sys2Proof/Laws/Memory.lean ====
section
/-! SUPPORT. The laws of memory: canonical form kept, read after write, extensionality, and the multi-byte forms. -/

namespace Sys2Proof.Machine

theorem Memory.wfAbove_cons (lo : Option Nat) (c : Host.Cell) (m : Memory) :
    Memory.wfAbove lo (c :: m) = true ↔
      (∀ a, lo = some a → a < c.1) ∧ c.2 ≠ Memory.unlisted ∧ Memory.wfAbove (some c.1) m = true := by
  cases lo <;> simp [Memory.wfAbove, and_assoc]

theorem Memory.wfAbove_weaken {a : Nat} {m : Memory} (h : Memory.wfAbove (some a) m = true) {lo : Option Nat}
    (hlo : ∀ b, lo = some b → b ≤ a) : Memory.wfAbove lo m = true := by
  cases m with
  | nil => rfl
  | cons c m =>
    rw [Memory.wfAbove_cons] at h ⊢
    exact ⟨fun b hb => lt_of_le_of_lt (hlo b hb) (h.1 a rfl), h.2⟩

/-- An address not above the bound of the list is not listed. -/
theorem Memory.read_below {a : Nat} {m : Memory} (h : Memory.wfAbove (some a) m = true) {c : Nat} (hc : c ≤ a) :
    m.read c = Memory.unlisted := by
  cases m with
  | nil => rfl
  | cons d m =>
    rw [Memory.wfAbove_cons] at h
    have := h.1 a rfl
    simp [Memory.read, lt_of_le_of_lt hc this]

theorem Memory.read_cons (d : Host.Cell) (m : Memory) (c : Nat) : Memory.read (d :: m) c =
    if c < d.1 then Memory.unlisted else if c = d.1 then d.2 else Memory.read m c := rfl

theorem Memory.read_write_above {lo : Option Nat} {m : Memory} (h : Memory.wfAbove lo m = true) (a : Nat) (b : U8)
    (c : Nat) : (m.write a b).read c = if c = a then b else m.read c := by
  induction m generalizing lo with
  | nil =>
    by_cases hb : b = Memory.unlisted
    · simp [Memory.write, Memory.read, hb]
    · simp only [Memory.write, hb, if_false, Memory.read_cons, Memory.read]
      split_ifs <;> first | rfl | omega
  | cons d m ih =>
    rw [Memory.wfAbove_cons] at h
    obtain ⟨-, -, hm⟩ := h
    have below : ∀ c ≤ d.1, Memory.read m c = Memory.unlisted := fun c hc => Memory.read_below hm hc
    rcases lt_trichotomy a d.1 with g | g | g
    · by_cases hb : b = Memory.unlisted
      · have e : Memory.write (d :: m) a b = d :: m := by simp [Memory.write, g, hb]
        rw [e]
        split_ifs with hca
        · rw [Memory.read_cons, if_pos (hca ▸ g), hb]
        · rfl
      · have e : Memory.write (d :: m) a b = (a, b) :: d :: m := by simp [Memory.write, g, hb]
        simp only [e, Memory.read_cons]
        split_ifs <;> first | rfl | omega
    · by_cases hb : b = Memory.unlisted
      · have e : Memory.write (d :: m) a b = m := by simp [Memory.write, g, hb]
        rw [e, Memory.read_cons]
        split_ifs with h1 h2 h3
        · rw [below c (by omega), hb]
        · exact below c (by omega)
        · omega
        · rfl
      · have e : Memory.write (d :: m) a b = (a, b) :: m := by simp [Memory.write, g, hb]
        simp only [e, Memory.read_cons]
        split_ifs <;> first | rfl | omega
    · have e : Memory.write (d :: m) a b = d :: Memory.write m a b := by
        simp [Memory.write, show ¬ a < d.1 by omega, show ¬ a = d.1 by omega]
      simp only [e, Memory.read_cons, ih hm]
      split_ifs <;> first | rfl | omega

/-- Read after write, for every memory in canonical form. -/
theorem Memory.read_write {m : Memory} (h : m.wf = true) (a : Nat) (b : U8) (c : Nat) :
    (m.write a b).read c = if c = a then b else m.read c :=
  Memory.read_write_above h a b c

theorem Memory.write_wfAbove {lo : Option Nat} {m : Memory} (h : Memory.wfAbove lo m = true) {a : Nat} (b : U8)
    (hlo : ∀ x, lo = some x → x < a) : Memory.wfAbove lo (m.write a b) = true := by
  induction m generalizing lo with
  | nil =>
    by_cases hb : b = Memory.unlisted
    · simp [Memory.write, hb, Memory.wfAbove]
    · simp only [Memory.write, hb, if_false]
      rw [Memory.wfAbove_cons]
      exact ⟨hlo, hb, rfl⟩
  | cons d m ih =>
    have h' := h
    rw [Memory.wfAbove_cons] at h
    obtain ⟨h1, h2, h3⟩ := h
    unfold Memory.write
    split_ifs with g1 g2 g3 g4
    · exact h'
    · rw [Memory.wfAbove_cons]
      exact ⟨hlo, g2, (Memory.wfAbove_cons _ _ _).2 ⟨fun x hx => by cases hx; exact g1, h2, h3⟩⟩
    · exact Memory.wfAbove_weaken h3 fun x hx => le_of_lt (h1 x hx)
    · rw [Memory.wfAbove_cons]
      subst g3
      exact ⟨h1, g4, h3⟩
    · rw [Memory.wfAbove_cons]
      exact ⟨h1, h2, ih h3 fun x hx => by cases hx; omega⟩

/-- A write keeps the canonical form. -/
theorem Memory.write_wf {m : Memory} (h : m.wf = true) (a : Nat) (b : U8) : (m.write a b).wf = true :=
  Memory.write_wfAbove h b fun _ hx => by cases hx

/-- A write lists no address but those listed before and its own. -/
theorem Memory.mem_write {m : Memory} {a : Nat} {b : U8} {c : Host.Cell} (h : c ∈ m.write a b) : c ∈ m ∨ c.1 = a := by
  induction m with
  | nil =>
    unfold Memory.write at h
    split_ifs at h
    · cases h
    · simp only [List.mem_singleton] at h
      exact .inr (by rw [h])
  | cons d m ih =>
    unfold Memory.write at h
    split_ifs at h
    · exact .inl h
    · rcases List.mem_cons.1 h with h | h
      · exact .inr (by rw [h])
      · exact .inl h
    · exact .inl (List.mem_cons_of_mem _ h)
    · rcases List.mem_cons.1 h with h | h
      · exact .inr (by rw [h])
      · exact .inl (List.mem_cons_of_mem _ h)
    · rcases List.mem_cons.1 h with h | h
      · exact .inl (by rw [h]; exact List.mem_cons_self)
      · exact (ih h).imp_left (List.mem_cons_of_mem _)

theorem Memory.ext_above {lo lo' : Option Nat} {m m' : Memory} (h : Memory.wfAbove lo m = true)
    (h' : Memory.wfAbove lo' m' = true) (e : ∀ a, m.read a = m'.read a) : m = m' := by
  induction m generalizing lo lo' m' with
  | nil =>
    cases m' with
    | nil => rfl
    | cons d m' =>
      rw [Memory.wfAbove_cons] at h'
      have := e d.1
      simp [Memory.read] at this
      exact absurd this.symm h'.2.1
  | cons c m ih =>
    cases m' with
    | nil =>
      rw [Memory.wfAbove_cons] at h
      have := e c.1
      simp [Memory.read] at this
      exact absurd this h.2.1
    | cons d m' =>
      rw [Memory.wfAbove_cons] at h h'
      obtain ⟨-, hc, hm⟩ := h
      obtain ⟨-, hd, hm'⟩ := h'
      have key : c.1 = d.1 := by
        rcases lt_trichotomy c.1 d.1 with g | g | g
        · have := e c.1
          simp [Memory.read, g] at this
          exact absurd this hc
        · exact g
        · have := e d.1
          simp [Memory.read, g] at this
          exact absurd this.symm hd
      have val : c.2 = d.2 := by
        have := e c.1
        simpa [Memory.read, key] using this
      have tail : m = m' := by
        refine ih hm hm' fun a => ?_
        have ha := e a
        simp only [Memory.read, key] at ha
        split_ifs at ha with g1 g2
        · rw [Memory.read_below hm (key ▸ le_of_lt g1), Memory.read_below hm' (le_of_lt g1)]
        · rw [Memory.read_below hm (key ▸ le_of_eq g2), Memory.read_below hm' (le_of_eq g2)]
        · exact ha
      rw [tail, Prod.ext key val]

/-- Memories in canonical form that read alike are equal. -/
theorem Memory.ext_read {m m' : Memory} (h : m.wf = true) (h' : m'.wf = true) (e : ∀ a, m.read a = m'.read a) :
    m = m' := Memory.ext_above h h' e

/-! ## Multi-byte reads and writes -/

/-- A multi-byte read depends on the bytes it reads and nothing else. -/
theorem memRead_congr {m m' : Memory} {a a' n : Nat} (h : ∀ j, j < n → m.read (a + j) = m'.read (a' + j)) :
    memRead m a n = memRead m' a' n := by
  induction n generalizing a a' with
  | zero => rfl
  | succ n ih =>
    have h0 : m.read a = m'.read a' := h 0 (Nat.succ_pos n)
    have ht : memRead m (a + 1) n = memRead m' (a' + 1) n := ih fun j hj => by
      have := h (j + 1) (Nat.succ_lt_succ hj)
      rwa [show a + (j + 1) = a + 1 + j by omega, show a' + (j + 1) = a' + 1 + j by omega] at this
    simp only [memRead, h0, ht]

/-- Byte `j` of a multi-byte read is the byte at `a + j` (R13). -/
theorem memRead_byte (m : Memory) (a n j : Nat) (hj : j < n) :
    (memRead m a n).extractLsb' (8 * j) 8 = m.read (a + j) := by
  induction n generalizing a j with
  | zero => omega
  | succ n ih =>
    cases j with
    | zero =>
      apply BitVec.eq_of_getLsbD_eq
      intro i hi
      simp only [memRead]
      rw [BitVec.getLsbD_extractLsb', BitVec.getLsbD_append]
      simp [hi]
    | succ j =>
      have := ih (a + 1) j (by omega)
      rw [show a + (j + 1) = a + 1 + j by omega, ← this]
      apply BitVec.eq_of_getLsbD_eq
      intro i hi
      simp only [memRead]
      rw [BitVec.getLsbD_extractLsb', BitVec.getLsbD_append, BitVec.getLsbD_extractLsb']
      have h1 : ¬ 8 * (j + 1) + i < 8 := by omega
      have h2 : 8 * (j + 1) + i - 8 = 8 * j + i := by omega
      simp [h1, h2]

theorem memWrite_wf {m : Memory} (h : m.wf = true) (a n : Nat) (v : BitVec (8 * n)) : (memWrite m a n v).wf = true := by
  induction n generalizing m a with
  | zero => exact h
  | succ n ih => exact ih (Memory.write_wf h _ _) _ _

theorem mem_memWrite {m : Memory} {a n : Nat} {v : BitVec (8 * n)} {c : Host.Cell} (h : c ∈ memWrite m a n v) :
    c ∈ m ∨ (a ≤ c.1 ∧ c.1 < a + n) := by
  induction n generalizing m a with
  | zero => exact .inl h
  | succ n ih =>
    rcases ih h with h | h
    · rcases Memory.mem_write h with h | h
      · exact .inl h
      · exact .inr (by omega)
    · exact .inr (by omega)

/-- A multi-byte write leaves every other byte alone. -/
theorem memWrite_read_other {m : Memory} (h : m.wf = true) (a n : Nat) (v : BitVec (8 * n)) {c : Nat}
    (hc : c < a ∨ a + n ≤ c) : (memWrite m a n v).read c = m.read c := by
  induction n generalizing m a with
  | zero => rfl
  | succ n ih =>
    unfold memWrite
    rw [ih (Memory.write_wf h _ _) _ _ (by omega), Memory.read_write h, if_neg (by omega)]

/-- Byte `j` of the value written goes to `a + j` (R13). -/
theorem memWrite_read_byte {m : Memory} (h : m.wf = true) (a n : Nat) (v : BitVec (8 * n)) {j : Nat} (hj : j < n) :
    (memWrite m a n v).read (a + j) = v.extractLsb' (8 * j) 8 := by
  induction n generalizing m a j with
  | zero => omega
  | succ n ih =>
    unfold memWrite
    cases j with
    | zero =>
      rw [memWrite_read_other (Memory.write_wf h _ _) _ _ _ (by omega), Memory.read_write h]
      simp
    | succ j =>
      rw [show a + (j + 1) = a + 1 + j by omega, ih (Memory.write_wf h _ _) _ _ (by omega)]
      apply BitVec.eq_of_getLsbD_eq
      intro i hi
      rw [BitVec.getLsbD_extractLsb', BitVec.getLsbD_extractLsb', BitVec.getLsbD_extractLsb']
      have h1 : 8 * j + i < 8 * n := by omega
      have h2 : 8 + (8 * j + i) = 8 * (j + 1) + i := by omega
      simp [h1, h2]

/-- A value of `8 n` bits is known by its bytes. -/
theorem eq_of_bytes {n : Nat} {v w : BitVec (8 * n)}
    (h : ∀ j, j < n → v.extractLsb' (8 * j) 8 = w.extractLsb' (8 * j) 8) : v = w := by
  apply BitVec.eq_of_getLsbD_eq
  intro i hi
  have hb := congrArg (fun b => BitVec.getLsbD b (i % 8)) (h (i / 8) (by omega))
  simp only [BitVec.getLsbD_extractLsb'] at hb
  have h1 : i % 8 < 8 := Nat.mod_lt _ (by decide)
  have h2 : 8 * (i / 8) + i % 8 = i := by omega
  simpa [h1, h2] using hb

/-- Reading back what was written. -/
theorem memRead_memWrite {m : Memory} (h : m.wf = true) (a n : Nat) (v : BitVec (8 * n)) :
    memRead (memWrite m a n v) a n = v :=
  eq_of_bytes fun j hj => by rw [memRead_byte _ _ _ _ hj, memWrite_read_byte h _ _ _ hj]

/-- Reading elsewhere than what was written. -/
theorem memRead_memWrite_other {m : Memory} (h : m.wf = true) (a n : Nat) (v : BitVec (8 * n)) {b l : Nat}
    (hd : b + l ≤ a ∨ a + n ≤ b) : memRead (memWrite m a n v) b l = memRead m b l :=
  memRead_congr fun j hj => memWrite_read_other h _ _ _ (by omega)

/-! ## The free bytes of a reset -/

theorem scramble_wf {m : Memory} (h : m.wf = true) (a d len : Nat) : (scramble m a d len).wf = true := by
  induction len generalizing m a d with
  | zero => exact h
  | succ len ih => exact ih (Memory.write_wf h _ _) _ _

theorem mem_scramble {m : Memory} {a d len : Nat} {c : Host.Cell} (h : c ∈ scramble m a d len) :
    c ∈ m ∨ (a ≤ c.1 ∧ c.1 < a + len) := by
  induction len generalizing m a d with
  | zero => exact .inl h
  | succ len ih =>
    rcases ih h with h | h
    · rcases Memory.mem_write h with h | h
      · exact .inl h
      · exact .inr (by omega)
    · exact .inr (by omega)

theorem scramble_read_other {m : Memory} (h : m.wf = true) (a d len : Nat) {c : Nat} (hc : c < a ∨ a + len ≤ c) :
    (scramble m a d len).read c = m.read c := by
  induction len generalizing m a d with
  | zero => rfl
  | succ len ih =>
    unfold scramble
    rw [ih (Memory.write_wf h _ _) _ _ (by omega), Memory.read_write h, if_neg (by omega)]

theorem scramble_read_inside {m : Memory} (h : m.wf = true) (a d len : Nat) {j : Nat} (hj : j < len) :
    (scramble m a d len).read (a + j) = Config.freeByte (d + j) := by
  induction len generalizing m a d j with
  | zero => omega
  | succ len ih =>
    unfold scramble
    cases j with
    | zero =>
      rw [scramble_read_other (Memory.write_wf h _ _) _ _ _ (by omega), Memory.read_write h]
      simp
    | succ j =>
      rw [show a + (j + 1) = a + 1 + j by omega, ih (Memory.write_wf h _ _) _ _ (by omega)]
      congr 1
      omega

end Sys2Proof.Machine
end

