-- ==== Sys2Proof/Laws/State.lean ====
section
/-! SUPPORT. One lemma per field per update of State and of the channel records, so that no later proof unfolds a record. -/

namespace Sys2Proof.Machine

/-! ## Channel records -/

@[simp] theorem Channels.get_set_same (c : Channels) (k : Chan) (v : Option Pass) : (c.set k v).get k = v := by
  cases k <;> rfl

theorem Channels.get_set_other (c : Channels) {j k : Chan} (v : Option Pass) (h : j ≠ k) :
    (c.set k v).get j = c.get j := by
  cases j <;> cases k <;> first | rfl | exact absurd rfl h

theorem Channels.get_set (c : Channels) (j k : Chan) (v : Option Pass) :
    (c.set k v).get j = if j = k then v else c.get j := by
  split
  · next h => rw [h, Channels.get_set_same]
  · next h => exact Channels.get_set_other c v h

theorem Channels.set_comm (c : Channels) {j k : Chan} (v w : Option Pass) (h : j ≠ k) :
    (c.set j v).set k w = (c.set k w).set j v := by
  cases j <;> cases k <;> first | rfl | exact absurd rfl h

/-- Two channel records that agree on every channel are equal. -/
theorem Channels.ext_get {c d : Channels} (h : ∀ k, c.get k = d.get k) : c = d := by
  have h1 := h .ch1; have h2 := h .ch2; have h3 := h .ch3; have h4 := h .ch4; have h5 := h .ch5
  cases c; cases d
  simp only [Channels.get] at h1 h2 h3 h4 h5
  subst h1 h2 h3 h4 h5
  rfl

theorem Chan.mem_all (k : Chan) : k ∈ Chan.all := by cases k <;> decide

/-! ## State updates -/

@[simp] theorem State.setCh_cfg (s : State) (k : Chan) (v : Option Pass) : (s.setCh k v).cfg = s.cfg := rfl
@[simp] theorem State.setCh_ch (s : State) (k : Chan) (v : Option Pass) : (s.setCh k v).ch = s.ch.set k v := rfl
@[simp] theorem State.setCh_mem (s : State) (k : Chan) (v : Option Pass) : (s.setCh k v).mem = s.mem := rfl
@[simp] theorem State.setCh_host (s : State) (k : Chan) (v : Option Pass) : (s.setCh k v).host = s.host := rfl
@[simp] theorem State.setCh_schedule (s : State) (k : Chan) (v : Option Pass) : (s.setCh k v).schedule = s.schedule := rfl
@[simp] theorem State.setCh_lent (s : State) (k : Chan) (v : Option Pass) : (s.setCh k v).lent = s.lent := rfl
@[simp] theorem State.setCh_seen (s : State) (k : Chan) (v : Option Pass) : (s.setCh k v).seen = s.seen := rfl
@[simp] theorem State.setCh_draws (s : State) (k : Chan) (v : Option Pass) : (s.setCh k v).draws = s.draws := rfl

@[simp] theorem State.tell_cfg (s : State) (e : Seen) : (s.tell e).cfg = s.cfg := rfl
@[simp] theorem State.tell_ch (s : State) (e : Seen) : (s.tell e).ch = s.ch := rfl
@[simp] theorem State.tell_mem (s : State) (e : Seen) : (s.tell e).mem = s.mem := rfl
@[simp] theorem State.tell_host (s : State) (e : Seen) : (s.tell e).host = s.host := rfl
@[simp] theorem State.tell_schedule (s : State) (e : Seen) : (s.tell e).schedule = s.schedule := rfl
@[simp] theorem State.tell_lent (s : State) (e : Seen) : (s.tell e).lent = s.lent := rfl
@[simp] theorem State.tell_seen (s : State) (e : Seen) : (s.tell e).seen = e :: s.seen := rfl
@[simp] theorem State.tell_draws (s : State) (e : Seen) : (s.tell e).draws = s.draws := rfl

@[simp] theorem State.present_cfg (s : State) (l : Lent) (r : List HostMove) : (s.present l r).cfg = s.cfg := rfl
@[simp] theorem State.present_ch (s : State) (l : Lent) (r : List HostMove) : (s.present l r).ch = s.ch := rfl
@[simp] theorem State.present_mem (s : State) (l : Lent) (r : List HostMove) : (s.present l r).mem = s.mem := rfl
@[simp] theorem State.present_host (s : State) (l : Lent) (r : List HostMove) : (s.present l r).host = r := rfl
@[simp] theorem State.present_schedule (s : State) (l : Lent) (r : List HostMove) :
    (s.present l r).schedule = s.schedule := rfl
@[simp] theorem State.present_lent (s : State) (l : Lent) (r : List HostMove) : (s.present l r).lent = l := rfl
@[simp] theorem State.present_seen (s : State) (l : Lent) (r : List HostMove) : (s.present l r).seen = s.seen := rfl
@[simp] theorem State.present_draws (s : State) (l : Lent) (r : List HostMove) : (s.present l r).draws = s.draws := rfl

@[simp] theorem retire_cfg (k : Chan) (s : State) : (retire k s).cfg = s.cfg := rfl
@[simp] theorem retire_ch (k : Chan) (s : State) : (retire k s).ch = s.ch.set k none := rfl
@[simp] theorem retire_mem (k : Chan) (s : State) : (retire k s).mem = s.mem := rfl
@[simp] theorem retire_host (k : Chan) (s : State) : (retire k s).host = s.host := rfl
@[simp] theorem retire_schedule (k : Chan) (s : State) : (retire k s).schedule = s.schedule := rfl
@[simp] theorem retire_lent (k : Chan) (s : State) : (retire k s).lent = s.lent := rfl
@[simp] theorem retire_seen (k : Chan) (s : State) : (retire k s).seen = .done k :: s.seen := rfl
@[simp] theorem retire_draws (k : Chan) (s : State) : (retire k s).draws = s.draws := rfl

@[simp] theorem Pass.advance_src (p : Pass) : p.advance.src = p.src := rfl
@[simp] theorem Pass.advance_dst (p : Pass) : p.advance.dst = p.dst := rfl
@[simp] theorem Pass.advance_n (p : Pass) : p.advance.n = p.n := rfl
@[simp] theorem Pass.advance_idx (p : Pass) : p.advance.idx = p.idx + 1 := rfl
@[simp] theorem Pass.advance_srcRegion (p : Pass) (k : Chan) : p.advance.srcRegion k = p.srcRegion k := rfl
@[simp] theorem Pass.advance_dstRegion (p : Pass) (k : Chan) : p.advance.dstRegion k = p.dstRegion k := rfl

@[simp] theorem newPass_src (o : Operands) : (newPass o).src = o.src := rfl
@[simp] theorem newPass_dst (o : Operands) : (newPass o).dst = o.dst := rfl
@[simp] theorem newPass_n (o : Operands) : (newPass o).n = pixelCount o := rfl
@[simp] theorem newPass_idx (o : Operands) : (newPass o).idx = 0 := rfl
@[simp] theorem newPass_srcRegion (o : Operands) (k : Chan) : (newPass o).srcRegion k = srcRegionOf k o := rfl
@[simp] theorem newPass_dstRegion (o : Operands) (k : Chan) : (newPass o).dstRegion k = dstRegionOf k o := rfl

theorem State.busy_eq_false (s : State) (k : Chan) : s.busy k = false ↔ s.ch.get k = none := by
  simp [State.busy]

theorem State.busy_eq_true (s : State) (k : Chan) : s.busy k = true ↔ ∃ p, s.ch.get k = some p := by
  simp [State.busy, Option.isSome_iff_exists]

theorem State.status_bit (s : State) (k : Chan) : s.status.bit k = s.busy k := by cases k <;> rfl

end Sys2Proof.Machine
end

