-- ==== Sys2Proof/Laws/Operands.lean ====
section
/-! SUPPORT. What regions and the contract of an issue say, in terms of addresses (00_scope.md R17, 40_pass_common.md R102). -/

namespace Sys2Proof.Machine

theorem Region.has_iff (r : Region) (a : Nat) : r.has a = true ↔ r.base ≤ a ∧ a < r.base + r.len := by
  simp [Region.has]

/-- Two regions overlap exactly when they share an address (R17). -/
theorem Region.overlaps_iff (r q : Region) :
    r.overlaps q = true ↔ ∃ a, r.has a = true ∧ q.has a = true := by
  simp only [Region.overlaps, Region.has_iff, Bool.and_eq_true, decide_eq_true_eq]
  constructor
  · rintro ⟨⟨⟨h1, h2⟩, h3⟩, h4⟩
    exact ⟨max r.base q.base, by omega, by omega⟩
  · rintro ⟨a, h1, h2⟩
    omega

theorem Region.not_overlaps_iff (r q : Region) :
    r.overlaps q = false ↔ ∀ a, r.has a = true → q.has a = false := by
  rw [← Bool.not_eq_true, Region.overlaps_iff]
  simp

theorem Region.overlaps_symm (r q : Region) : r.overlaps q = q.overlaps r := by
  rw [Bool.eq_iff_iff, Region.overlaps_iff, Region.overlaps_iff]
  exact exists_congr fun a => and_comm

theorem Region.inside_iff (r q : Region) :
    r.inside q = true ↔ r.len = 0 ∨ (q.base ≤ r.base ∧ r.base + r.len ≤ q.base + q.len) := by
  simp [Region.inside]

theorem Chan.srcBytes_pos (k : Chan) : 0 < k.srcBytes := by cases k <;> decide

theorem Chan.dstBytes_pos (k : Chan) : 0 < k.dstBytes := by cases k <;> decide

theorem noWrap_iff (c : Config) (S D : Region) :
    noWrap c S D = true ↔ S.base + S.len ≤ c.space ∧ D.base + D.len ≤ c.space := by simp [noWrap]

theorem conflictsWith_eq_false (s : State) (S D : Region) (j : Chan) :
    conflictsWith s S D j = false ↔ ∀ p, s.ch.get j = some p →
      D.overlaps (p.srcRegion j) = false ∧ D.overlaps (p.dstRegion j) = false ∧ S.overlaps (p.dstRegion j) = false := by
  unfold conflictsWith
  cases h : s.ch.get j with
  | none => simp
  | some p => simp [and_assoc]

/-- Check 4 passes when it passes against every other channel with a pass in flight (R102). -/
theorem conflict_eq_false (s : State) (k : Chan) (S D : Region) :
    conflict s k S D = false ↔ ∀ j p, j ≠ k → s.ch.get j = some p →
      D.overlaps (p.srcRegion j) = false ∧ D.overlaps (p.dstRegion j) = false ∧ S.overlaps (p.dstRegion j) = false := by
  simp only [conflict, List.any_eq_false, Bool.and_eq_true, decide_eq_true_eq, not_and, Bool.not_eq_true]
  constructor
  · intro h j p hj
    exact (conflictsWith_eq_false s S D j).1 (h j (Chan.mem_all j) hj) p
  · intro h j _ hj
    exact (conflictsWith_eq_false s S D j).2 fun p => h j p hj

/-- A check that fails names one of the four reasons of R102. -/
theorem issueRefusal_eq_some {s : State} {k : Chan} {o : Operands} {r : Refusal} (h : issueRefusal s k o = some r) :
    r = .addressWrap ∨ r = .invalidBufferSize ∨ r = .bufferOverlap ∨ r = .channelConflict := by
  unfold issueRefusal at h
  split_ifs at h <;> cases h <;> simp

/-- An issue is not refused exactly when the four checks of R102 pass. -/
theorem issueRefusal_eq_none (s : State) (k : Chan) (o : Operands) :
    issueRefusal s k o = none ↔
      noWrap s.cfg (srcRegionOf k o) (dstRegionOf k o) = true ∧
      s.lent.covers (srcRegionOf k o) (dstRegionOf k o) = true ∧
      (srcRegionOf k o).overlaps (dstRegionOf k o) = false ∧
      conflict s k (srcRegionOf k o) (dstRegionOf k o) = false := by
  unfold issueRefusal
  split_ifs with h1 h2 h3 h4 <;> simp_all

theorem srcRegionOf_base (k : Chan) (o : Operands) : (srcRegionOf k o).base = o.src := rfl
theorem srcRegionOf_len (k : Chan) (o : Operands) : (srcRegionOf k o).len = pixelCount o * k.srcBytes := rfl
theorem dstRegionOf_base (k : Chan) (o : Operands) : (dstRegionOf k o).base = o.dst := rfl
theorem dstRegionOf_len (k : Chan) (o : Operands) : (dstRegionOf k o).len = pixelCount o * k.dstBytes := rfl
theorem Pass.srcRegion_has (p : Pass) (k : Chan) (a : Nat) :
    (p.srcRegion k).has a = true ↔ p.src ≤ a ∧ a < p.src + p.n * k.srcBytes := Region.has_iff _ _
theorem Pass.dstRegion_has (p : Pass) (k : Chan) (a : Nat) :
    (p.dstRegion k).has a = true ↔ p.dst ≤ a ∧ a < p.dst + p.n * k.dstBytes := Region.has_iff _ _

/-- The pixel count of 32-bit WIDTH and HEIGHT is at most `(2^32 - 1)^2` (R9, R23). -/
theorem pixelCount_le (o : Operands) : pixelCount o ≤ (2 ^ 32 - 1) ^ 2 := by
  have h1 : o.width.toNat ≤ 2 ^ 32 - 1 := Nat.le_sub_one_of_lt o.width.isLt
  have h2 : o.height.toNat ≤ 2 ^ 32 - 1 := Nat.le_sub_one_of_lt o.height.isLt
  rw [sq]
  exact Nat.mul_le_mul h1 h2

end Sys2Proof.Machine
end

