-- ==== Sys2Proof/Laws/PerInstr.lean ====
section
/-! SUPPORT. The per-instruction family `OpcodeRow`: each command's control word is its row of the opcode map (30_encoding.md R87),
its reserved bits are 0 (R81), and the descriptor's fields decode back to it (R93). -/

namespace Sys2Proof.Laws.OpcodeRow

def Statement (i : Instr) : Prop :=
  i.encode.ctrl.toNat = i.op ∧ i.encode.ctrl.toNat / 8 = 0 ∧ i.encode.decode = .cmd i

theorem rgba8ToRgb8 (o : Operands) : Statement (.rgba8ToRgb8 o) := ⟨rfl, (by decide : 1 / 8 = 0), rfl⟩
theorem rgba8ToRgb565 (o : Operands) : Statement (.rgba8ToRgb565 o) := ⟨rfl, (by decide : 2 / 8 = 0), rfl⟩
theorem rgba8ToRgba4 (o : Operands) : Statement (.rgba8ToRgba4 o) := ⟨rfl, (by decide : 3 / 8 = 0), rfl⟩
theorem rgba8ToLa88 (o : Operands) : Statement (.rgba8ToLa88 o) := ⟨rfl, (by decide : 4 / 8 = 0), rfl⟩
theorem rgb565ToRgba5551 (o : Operands) : Statement (.rgb565ToRgba5551 o) := ⟨rfl, (by decide : 5 / 8 = 0), rfl⟩

end Sys2Proof.Laws.OpcodeRow
end

