-- ==== Sys2Proof/Laws/Run.lean ====
section
/-! SUPPORT. Runs of several steps, taken apart and put together. -/

namespace Sys2Proof.Machine

theorem run_zero (s : State) : run 0 s = .next s := rfl

theorem run_succ_next {m : Nat} {s t : State} (h : step s = .next t) : run (m + 1) s = run m t := by
  have h' : Sys2Proof.core.step s = .next t := h
  simp only [run, Host.Core.run, h']
  rfl

theorem run_succ_fault {m : Nat} {s : State} {r : Fault} (h : step s = .fault r) : run (m + 1) s = .fault r := by
  have h' : Sys2Proof.core.step s = .fault r := h
  simp only [run, Host.Core.run, h']
  rfl

theorem run_succ_refused {m : Nat} {s : State} {r : Refusal} (h : step s = .refused r) :
    run (m + 1) s = .refused r := by
  have h' : Sys2Proof.core.step s = .refused r := h
  simp only [run, Host.Core.run, h']
  rfl

/-- A run that answers a next state took a first step that did. -/
theorem run_succ_cases {m : Nat} {s t : State} (h : run (m + 1) s = .next t) :
    ∃ u, step s = .next u ∧ run m u = .next t := by
  cases hs : step s with
  | next u => exact ⟨u, rfl, by rwa [run_succ_next hs] at h⟩
  | fault r => rw [run_succ_fault hs] at h; cases h
  | refused r => rw [run_succ_refused hs] at h; cases h

/-- What every step keeps, every run keeps. -/
theorem run_keeps {P : State → Prop} (hstep : ∀ s t, P s → step s = .next t → P t) {m : Nat} {s t : State}
    (hs : P s) (h : run m s = .next t) : P t := by
  induction m generalizing s with
  | zero => cases h; exact hs
  | succ m ih =>
    obtain ⟨u, h1, h2⟩ := run_succ_cases h
    exact ih (hstep s u hs h1) h2

end Sys2Proof.Machine
end

