-- ==== Sys2Proof/Laws/Steps.lean ====
section
/-! SUPPORT. For each shared operation, one lemma that says once everything it can do when it answers a next state. -/

namespace Sys2Proof.Machine

/-! ## Issue (R101 to R103) -/

theorem issue_held {k : Chan} {o : Operands} {s : State} (h : s.busy k = true) : issue k o s = .next s := by
  simp [issue, h]

theorem issue_accepted {k : Chan} {o : Operands} {s : State} (h : s.ch.get k = none)
    (hc : issueRefusal s k o = none) : issue k o s = .next (s.setCh k (some (newPass o))) := by
  simp [issue, (State.busy_eq_false s k).2 h, hc]

theorem issue_refused {k : Chan} {o : Operands} {s : State} (h : s.ch.get k = none) {r : Refusal}
    (hc : issueRefusal s k o = some r) : issue k o s = .refused r := by
  simp [issue, (State.busy_eq_false s k).2 h, hc]

/-- An issue that answers a next state was held, or was accepted under the contract. -/
theorem issue_cases {k : Chan} {o : Operands} {s t : State} (h : issue k o s = .next t) :
    (s.busy k = true ∧ t = s) ∨
    (s.ch.get k = none ∧ issueRefusal s k o = none ∧ t = s.setCh k (some (newPass o))) := by
  by_cases hb : s.busy k = true
  · rw [issue_held hb] at h
    cases h
    exact .inl ⟨hb, rfl⟩
  · have hn := (State.busy_eq_false s k).1 (by simpa using hb)
    cases hc : issueRefusal s k o with
    | none =>
      rw [issue_accepted hn hc] at h
      cases h
      exact .inr ⟨hn, rfl, rfl⟩
    | some r =>
      rw [issue_refused hn hc] at h
      cases h

/-- Every command is the issue on its channel (R103, R131, R141, R151, R161, R176). -/
theorem exec_eq_issue (i : Instr) (s : State) : exec i s = issue (instrChan i) i.operands s := by
  cases i <;> rfl

/-! ## Channel steps (R104, R109) -/

/-- Operation 4 alone looks at the configuration, and only at its luma arithmetic (R164). -/
theorem stage_congr {c c' : Config} {k : Chan} (h : k = .ch4 → c.lumaArith = c'.lumaArith) : stage c k = stage c' k := by
  cases k with
  | ch4 => funext p; simp only [stage, stage4, luma, h rfl]; rfl
  | _ => rfl

theorem pixelStep_cases {k : Chan} {p : Pass} {s t : State} (h : pixelStep k p s = .next t) :
    p.srcAddr k + k.srcBytes ≤ s.cfg.space ∧ p.dstAddr k + k.dstBytes ≤ s.cfg.space ∧
      t = { s.setCh k (some p.advance) with mem := convertPixel s.cfg k p s.mem } := by
  unfold pixelStep at h
  split_ifs at h with h1
  cases h
  exact ⟨by omega, by omega, rfl⟩

/-- A pixel step is refused only where its pixel would pass 2^ADDR_W (log 11). -/
theorem pixelStep_refused {k : Chan} {p : Pass} {s : State} {r : Refusal} (h : pixelStep k p s = .refused r) :
    r = .addressWrap ∧ (s.cfg.space < p.srcAddr k + k.srcBytes ∨ s.cfg.space < p.dstAddr k + k.dstBytes) := by
  unfold pixelStep at h
  split_ifs at h with h1
  cases h
  exact ⟨rfl, h1⟩

theorem pixelStep_next {k : Chan} {p : Pass} {s : State} (h1 : p.srcAddr k + k.srcBytes ≤ s.cfg.space)
    (h2 : p.dstAddr k + k.dstBytes ≤ s.cfg.space) :
    pixelStep k p s = .next { s.setCh k (some p.advance) with mem := convertPixel s.cfg k p s.mem } := by
  simp [pixelStep, Nat.not_lt.2 h1, Nat.not_lt.2 h2]

/-- A channel's turn passes, takes the pixel step, or retires. -/
theorem channelStep_cases {k : Chan} {s t : State} (h : channelStep k s = .next t) :
    (t = s ∧ s.channelEnabled k = false) ∨
    (∃ p, s.ch.get k = some p ∧ p.idx < p.n ∧ p.srcAddr k + k.srcBytes ≤ s.cfg.space ∧
      p.dstAddr k + k.dstBytes ≤ s.cfg.space ∧
      t = { s.setCh k (some p.advance) with mem := convertPixel s.cfg k p s.mem }) ∨
    (∃ p, s.ch.get k = some p ∧ p.idx = p.n ∧ t = retire k s) := by
  unfold channelStep at h
  cases hp : s.ch.get k with
  | none =>
    simp only [hp] at h
    cases h
    exact .inl ⟨rfl, by simp [State.channelEnabled, hp]⟩
  | some p =>
    simp only [hp] at h
    split_ifs at h with h1 h2
    · obtain ⟨g1, g2, g3⟩ := pixelStep_cases h
      exact .inr (.inl ⟨p, rfl, h1, g1, g2, g3⟩)
    · cases h
      exact .inr (.inr ⟨p, rfl, h2, rfl⟩)
    · cases h
      exact .inl ⟨rfl, by simp [State.channelEnabled, hp]; omega⟩

/-- A channel's turn is refused only in a pixel step that would pass 2^ADDR_W. -/
theorem channelStep_refused {k : Chan} {s : State} {r : Refusal} (h : channelStep k s = .refused r) :
    ∃ p, s.ch.get k = some p ∧ p.idx < p.n ∧ r = .addressWrap ∧
      (s.cfg.space < p.srcAddr k + k.srcBytes ∨ s.cfg.space < p.dstAddr k + k.dstBytes) := by
  unfold channelStep at h
  cases hp : s.ch.get k with
  | none => rw [hp] at h; cases h
  | some p =>
    simp only [hp] at h
    split_ifs at h with h1
    exact ⟨p, rfl, h1, pixelStep_refused h⟩

theorem channelStep_retire {k : Chan} {s : State} {p : Pass} (h : s.ch.get k = some p) (hi : p.idx = p.n) :
    channelStep k s = .next (retire k s) := by
  simp [channelStep, h, hi]

theorem channelStep_pixel {k : Chan} {s : State} {p : Pass} (h : s.ch.get k = some p) (hi : p.idx < p.n) :
    channelStep k s = pixelStep k p s := by
  simp [channelStep, h, hi]

/-- Within a pass, the pixel read lies in the source region and the pixel written in the destination region (R47). -/
theorem pixel_inside {x idx n b : Nat} (h : idx < n) : x + idx * b + b ≤ x + n * b := by
  have : (idx + 1) * b ≤ n * b := Nat.mul_le_mul_right b h
  rw [Nat.add_mul] at this
  omega

theorem convertPixel_wf {m : Memory} (h : m.wf = true) (c : Config) (k : Chan) (p : Pass) :
    (convertPixel c k p m).wf = true :=
  memWrite_wf h _ _ _

/-- A pixel step writes the `DB` bytes of its pixel and no other byte (R104). -/
theorem convertPixel_read_other {m : Memory} (h : m.wf = true) (c : Config) (k : Chan) (p : Pass) {a : Nat}
    (ha : a < p.dstAddr k ∨ p.dstAddr k + k.dstBytes ≤ a) : (convertPixel c k p m).read a = m.read a :=
  memWrite_read_other h _ _ _ ha

/-- Byte `j` of the pixel written is byte `j` of the stage of the pixel read (R104). -/
theorem convertPixel_read_byte {m : Memory} (h : m.wf = true) (c : Config) (k : Chan) (p : Pass) {j : Nat}
    (hj : j < k.dstBytes) :
    (convertPixel c k p m).read (p.dstAddr k + j) =
      (stage c k (memRead m (p.srcAddr k) k.srcBytes)).extractLsb' (8 * j) 8 :=
  memWrite_read_byte h _ _ _ hj

/-- The pixel written is the stage applied to the pixel read (R104). -/
theorem memRead_convertPixel {m : Memory} (h : m.wf = true) (c : Config) (k : Chan) (p : Pass) :
    memRead (convertPixel c k p m) (p.dstAddr k) k.dstBytes = stage c k (memRead m (p.srcAddr k) k.srcBytes) :=
  memRead_memWrite h _ _ _

/-! ## Reset (R220 to R222) -/

theorem resetChannel_cfg (s : State) (k : Chan) : (resetChannel s k).cfg = s.cfg := by
  unfold resetChannel; cases s.ch.get k <;> rfl
theorem resetChannel_host (s : State) (k : Chan) : (resetChannel s k).host = s.host := by
  unfold resetChannel; cases s.ch.get k <;> rfl
theorem resetChannel_schedule (s : State) (k : Chan) : (resetChannel s k).schedule = s.schedule := by
  unfold resetChannel; cases s.ch.get k <;> rfl
theorem resetChannel_lent (s : State) (k : Chan) : (resetChannel s k).lent = s.lent := by
  unfold resetChannel; cases s.ch.get k <;> rfl
theorem resetChannel_seen (s : State) (k : Chan) : (resetChannel s k).seen = s.seen := by
  unfold resetChannel; cases s.ch.get k <;> rfl

theorem resetChannel_get (s : State) (j k : Chan) :
    (resetChannel s k).ch.get j = if j = k then none else s.ch.get j := by
  unfold resetChannel
  cases h : s.ch.get k with
  | none => dsimp only; split_ifs with e; exacts [e ▸ h, rfl]
  | some p => exact Channels.get_set s.ch j k none

theorem resetChannel_wf {s : State} (h : s.mem.wf = true) (k : Chan) : (resetChannel s k).mem.wf = true := by
  unfold resetChannel
  cases s.ch.get k with
  | none => exact h
  | some p => exact scramble_wf h _ _ _

theorem resetChannel_read_other {s : State} (h : s.mem.wf = true) (k : Chan) {a : Nat}
    (ha : ∀ p, s.ch.get k = some p → (p.dstRegion k).has a = false) : (resetChannel s k).mem.read a = s.mem.read a := by
  unfold resetChannel
  cases hp : s.ch.get k with
  | none => rfl
  | some p =>
    have := ha p hp
    rw [← Bool.not_eq_true, Pass.dstRegion_has] at this
    exact scramble_read_other h _ _ _ (by omega)

theorem resetChannel_read_inside {s : State} (h : s.mem.wf = true) {k : Chan} {p : Pass} (hp : s.ch.get k = some p)
    {a : Nat} (ha : (p.dstRegion k).has a = true) : ∃ d, (resetChannel s k).mem.read a = Config.freeByte d := by
  rw [Pass.dstRegion_has] at ha
  refine ⟨s.draws + (a - p.dst), ?_⟩
  have := scramble_read_inside h p.dst s.draws (p.n * k.dstBytes) (j := a - p.dst) (by omega)
  simp only [resetChannel, hp]
  rwa [show p.dst + (a - p.dst) = a by omega] at this

theorem mem_resetChannel {s : State} {k : Chan} {c : Host.Cell} (h : c ∈ (resetChannel s k).mem) :
    c ∈ s.mem ∨ ∃ p, s.ch.get k = some p ∧ (p.dstRegion k).has c.1 = true := by
  unfold resetChannel at h
  cases hp : s.ch.get k with
  | none => rw [hp] at h; exact .inl h
  | some p =>
    rw [hp] at h
    rcases mem_scramble h with h | h
    · exact .inl h
    · exact .inr ⟨p, rfl, (Pass.dstRegion_has _ _ _).2 h⟩

theorem resetBlock_eq (s : State) : resetBlock s =
    resetChannel (resetChannel (resetChannel (resetChannel (resetChannel s .ch1) .ch2) .ch3) .ch4) .ch5 := rfl

@[simp] theorem resetBlock_cfg (s : State) : (resetBlock s).cfg = s.cfg := by
  simp [resetBlock_eq, resetChannel_cfg]
@[simp] theorem resetBlock_host (s : State) : (resetBlock s).host = s.host := by
  simp [resetBlock_eq, resetChannel_host]
@[simp] theorem resetBlock_schedule (s : State) : (resetBlock s).schedule = s.schedule := by
  simp [resetBlock_eq, resetChannel_schedule]
@[simp] theorem resetBlock_lent (s : State) : (resetBlock s).lent = s.lent := by
  simp [resetBlock_eq, resetChannel_lent]
@[simp] theorem resetBlock_seen (s : State) : (resetBlock s).seen = s.seen := by
  simp [resetBlock_eq, resetChannel_seen]

/-- Every channel is idle after a reset (R220). -/
@[simp] theorem resetBlock_get (s : State) (k : Chan) : (resetBlock s).ch.get k = none := by
  cases k <;> simp [resetBlock_eq, resetChannel_get]

theorem resetBlock_wf {s : State} (h : s.mem.wf = true) : (resetBlock s).mem.wf = true := by
  rw [resetBlock_eq]
  exact resetChannel_wf (resetChannel_wf (resetChannel_wf (resetChannel_wf (resetChannel_wf h _) _) _) _) _

/-! ## The host's moves (R111) -/

/-- The host issues: the command is held, or it is accepted under the contract. -/
theorem hostIssue_cases {bits : Nat} {l : Lent} {rest : List HostMove} {s t : State}
    (h : hostIssue bits l rest s = .next t) : ∃ i, decodeBits s.cfg bits = .cmd i ∧
      ((s.busy (instrChan i) = true ∧ t = s) ∨
       (s.ch.get (instrChan i) = none ∧ issueRefusal (s.present l rest) (instrChan i) i.operands = none ∧
        t = (s.present l rest).setCh (instrChan i) (some (newPass i.operands)))) := by
  unfold hostIssue at h
  cases hd : decodeBits s.cfg bits with
  | reserved => rw [hd] at h; cases h
  | cmd i =>
    rw [hd] at h
    refine ⟨i, rfl, ?_⟩
    dsimp only at h
    split_ifs at h with hb
    · cases h
      exact .inl ⟨hb, rfl⟩
    · rw [exec_eq_issue] at h
      rcases issue_cases h with ⟨g, -⟩ | g
      · exact absurd g hb
      · exact .inr g

theorem hostRead_cases {a : Nat} {s t : State} (h : hostRead a s = .next t) :
    a < s.cfg.space ∧ s.leasedDst a = false ∧ t = s.tell (.byte a (s.mem.read a)) := by
  unfold hostRead at h
  split_ifs at h with h1 h2
  cases h
  exact ⟨by omega, by simpa using h2, rfl⟩

theorem hostWrite_cases {a : Nat} {b : U8} {s t : State} (h : hostWrite a b s = .next t) :
    a < s.cfg.space ∧ s.leasedSrc a = false ∧ s.leasedDst a = false ∧ t = { s with mem := s.mem.write a b } := by
  unfold hostWrite at h
  split_ifs at h with h1 h2
  cases h
  simp only [Bool.or_eq_true, not_or, Bool.not_eq_true] at h2
  exact ⟨by omega, h2.1, h2.2, rfl⟩

theorem hostRead_refused {a : Nat} {s : State} {r : Refusal} (h : hostRead a s = .refused r) :
    (s.cfg.space ≤ a ∧ r = .addressWrap) ∨ (a < s.cfg.space ∧ s.leasedDst a = true ∧ r = .leaseViolation) := by
  unfold hostRead at h
  split_ifs at h with h1 h2 <;> cases h
  · exact .inl ⟨h1, rfl⟩
  · exact .inr ⟨by omega, h2, rfl⟩

theorem hostWrite_refused {a : Nat} {b : U8} {s : State} {r : Refusal} (h : hostWrite a b s = .refused r) :
    (s.cfg.space ≤ a ∧ r = .addressWrap) ∨
    (a < s.cfg.space ∧ (s.leasedSrc a = true ∨ s.leasedDst a = true) ∧ r = .leaseViolation) := by
  unfold hostWrite at h
  split_ifs at h with h1 h2 <;> cases h
  · exact .inl ⟨h1, rfl⟩
  · exact .inr ⟨by omega, by simpa using h2, rfl⟩

/-- An issue refused: the channel was idle and a check of R102 failed. -/
theorem issue_eq_refused {k : Chan} {o : Operands} {s : State} {r : Refusal} (h : issue k o s = .refused r) :
    s.ch.get k = none ∧ issueRefusal s k o = some r := by
  by_cases hb : s.busy k = true
  · rw [issue_held hb] at h; cases h
  · have hn := (State.busy_eq_false s k).1 (by simpa using hb)
    cases hc : issueRefusal s k o with
    | none => rw [issue_accepted hn hc] at h; cases h
    | some r' => rw [issue_refused hn hc] at h; cases h; exact ⟨hn, rfl⟩

/-- The host's turn is refused: a reserved descriptor, a command that fails a check, an address that does not exist, or an access
against the lease (R192). -/
theorem hostStep_refused {s : State} {r : Refusal} (h : hostStep s = .refused r) :
    (∃ bits l rest, s.host = .issue bits l :: rest ∧ decodeBits s.cfg bits = .reserved ∧ r = .reservedEncoding) ∨
    (∃ bits l rest i, s.host = .issue bits l :: rest ∧ decodeBits s.cfg bits = .cmd i ∧ s.ch.get (instrChan i) = none ∧
      issueRefusal (s.present l rest) (instrChan i) i.operands = some r) ∨
    (∃ a rest, (s.host = .read a :: rest ∨ ∃ b, s.host = .write a b :: rest) ∧ s.cfg.space ≤ a ∧ r = .addressWrap) ∨
    (∃ a rest, s.host = .read a :: rest ∧ a < s.cfg.space ∧ s.leasedDst a = true ∧ r = .leaseViolation) ∨
    (∃ a b rest, s.host = .write a b :: rest ∧ a < s.cfg.space ∧ (s.leasedSrc a = true ∨ s.leasedDst a = true) ∧
      r = .leaseViolation) := by
  unfold hostStep at h
  match hh : s.host with
  | [] => rw [hh] at h; cases h
  | .issue bits l :: rest =>
    simp only [hh, hostIssue] at h
    cases hd : decodeBits s.cfg bits with
    | reserved => rw [hd] at h; cases h; exact .inl ⟨bits, l, rest, rfl, hd, rfl⟩
    | cmd i =>
      simp only [hd] at h
      split_ifs at h
      rw [exec_eq_issue] at h
      obtain ⟨h1, h2⟩ := issue_eq_refused h
      exact .inr (.inl ⟨bits, l, rest, i, rfl, hd, h1, h2⟩)
  | .wait k :: rest =>
    simp only [hh] at h
    split_ifs at h
  | .status :: rest => rw [hh] at h; cases h
  | .read a :: rest =>
    rw [hh] at h
    rcases hostRead_refused h with ⟨h1, h2⟩ | ⟨h1, h2, h3⟩
    · exact .inr (.inr (.inl ⟨a, rest, .inl rfl, h1, h2⟩))
    · exact .inr (.inr (.inr (.inl ⟨a, rest, rfl, h1, h2, h3⟩)))
  | .write a b :: rest =>
    rw [hh] at h
    rcases hostWrite_refused h with ⟨h1, h2⟩ | ⟨h1, h2, h3⟩
    · exact .inr (.inr (.inl ⟨a, rest, .inr ⟨b, rfl⟩, h1, h2⟩))
    · exact .inr (.inr (.inr (.inr ⟨a, b, rest, rfl, h1, h2, h3⟩)))
  | .reset :: rest => rw [hh] at h; cases h

/-- An address is in a leased source region exactly when some pass in flight reads it. -/
theorem leasedSrc_eq_false (s : State) (a : Nat) :
    s.leasedSrc a = false ↔ ∀ k p, s.ch.get k = some p → (p.srcRegion k).has a = false := by
  simp only [State.leasedSrc, List.any_eq_false, Bool.not_eq_true]
  constructor
  · intro h k p hp
    have := h k (Chan.mem_all k)
    simpa [hp] using this
  · intro h k _
    cases hp : s.ch.get k with
    | none => rfl
    | some p => exact h k p hp

/-- An address is in a leased destination region exactly when some pass in flight writes it. -/
theorem leasedDst_eq_false (s : State) (a : Nat) :
    s.leasedDst a = false ↔ ∀ k p, s.ch.get k = some p → (p.dstRegion k).has a = false := by
  simp only [State.leasedDst, List.any_eq_false, Bool.not_eq_true]
  constructor
  · intro h k p hp
    have := h k (Chan.mem_all k)
    simpa [hp] using this
  · intro h k _
    cases hp : s.ch.get k with
    | none => rfl
    | some p => exact h k p hp

/-- What the host's turn can do. -/
theorem hostStep_cases {s t : State} (h : hostStep s = .next t) :
    (t = s ∧ s.hostEnabled = false) ∨
    (∃ bits l rest i, s.host = .issue bits l :: rest ∧ decodeBits s.cfg bits = .cmd i ∧
      s.ch.get (instrChan i) = none ∧ issueRefusal (s.present l rest) (instrChan i) i.operands = none ∧
      t = (s.present l rest).setCh (instrChan i) (some (newPass i.operands))) ∨
    (∃ k rest, s.host = .wait k :: rest ∧ s.ch.get k = none ∧ t = { s with host := rest }) ∨
    (∃ rest, s.host = .status :: rest ∧ t = { s with host := rest }.tell (.status s.status)) ∨
    (∃ a rest, s.host = .read a :: rest ∧ a < s.cfg.space ∧ s.leasedDst a = false ∧
      t = { s with host := rest }.tell (.byte a (s.mem.read a))) ∨
    (∃ a b rest, s.host = .write a b :: rest ∧ a < s.cfg.space ∧ s.leasedSrc a = false ∧ s.leasedDst a = false ∧
      t = { s with host := rest, mem := s.mem.write a b }) ∨
    (∃ rest, s.host = .reset :: rest ∧ t = resetBlock { s with host := rest }) := by
  unfold hostStep at h
  match hh : s.host with
  | [] =>
    rw [hh] at h; cases h
    exact .inl ⟨rfl, by simp [State.hostEnabled, hh]⟩
  | .issue bits l :: rest =>
    rw [hh] at h
    obtain ⟨i, hd, ⟨hb, e⟩ | ⟨g1, g2, g3⟩⟩ := hostIssue_cases h
    · exact .inl ⟨e, by simp [State.hostEnabled, hh, hd, hb]⟩
    · exact .inr (.inl ⟨bits, l, rest, i, rfl, hd, g1, g2, g3⟩)
  | .wait k :: rest =>
    rw [hh] at h
    dsimp only at h
    split_ifs at h with hb
    · cases h
      exact .inl ⟨rfl, by simp [State.hostEnabled, hh, hb]⟩
    · cases h
      exact .inr (.inr (.inl ⟨k, rest, rfl, (State.busy_eq_false s k).1 (by simpa using hb), rfl⟩))
  | .status :: rest =>
    rw [hh] at h; cases h
    exact .inr (.inr (.inr (.inl ⟨rest, rfl, rfl⟩)))
  | .read a :: rest =>
    rw [hh] at h
    obtain ⟨g1, g2, g3⟩ := hostRead_cases h
    exact .inr (.inr (.inr (.inr (.inl ⟨a, rest, rfl, g1, g2, g3⟩))))
  | .write a b :: rest =>
    rw [hh] at h
    obtain ⟨g1, g2, g3, g4⟩ := hostWrite_cases h
    exact .inr (.inr (.inr (.inr (.inr (.inl ⟨a, b, rest, rfl, g1, g2, g3, g4⟩)))))
  | .reset :: rest =>
    rw [hh] at h; cases h
    exact .inr (.inr (.inr (.inr (.inr (.inr ⟨rest, rfl, rfl⟩)))))

/-! ## One step of the machine (R114) -/

/-- A step is a turn of one agent, from the same state with the turn taken off the schedule or a draw made; or, where the
schedule is empty and no agent is enabled, nothing. -/
theorem step_cases {s t : State} (h : step s = .next t) :
    (t = s ∧ s.schedule = [] ∧ s.enabledAgents = []) ∨
    ∃ a σ d, act a { s with schedule := σ, draws := d } = .next t ∧
      (s.schedule = a :: σ ∧ d = s.draws ∨ s.schedule = [] ∧ σ = [] ∧ a ∈ s.enabledAgents) := by
  unfold step at h
  cases hs : s.schedule with
  | cons a σ =>
    rw [hs] at h
    exact .inr ⟨a, σ, s.draws, h, .inl ⟨rfl, rfl⟩⟩
  | nil =>
    rw [hs] at h
    dsimp only at h
    unfold freeStep at h
    match he : s.enabledAgents with
    | [] =>
      rw [he] at h; cases h
      exact .inl ⟨rfl, rfl, rfl⟩
    | [a] =>
      rw [he] at h
      refine .inr ⟨a, [], s.draws, ?_, .inr ⟨rfl, rfl, by simp⟩⟩
      rw [← hs]; exact h
    | a :: b :: l =>
      rw [he] at h
      refine .inr ⟨_, [], s.draws + 1, by rw [← hs]; exact h, .inr ⟨rfl, rfl, ?_⟩⟩
      unfold freeAgent
      cases hg : (a :: b :: l)[Config.freeTurn s.draws % (l.length + 2)]? with
      | none => exact List.mem_cons_self
      | some x => exact List.mem_of_getElem? hg

/-- A step that is refused is a refused turn of one agent. -/
theorem step_refused {s : State} {r : Refusal} (h : step s = .refused r) :
    ∃ a σ d, act a { s with schedule := σ, draws := d } = .refused r := by
  unfold step at h
  cases hs : s.schedule with
  | cons a σ => rw [hs] at h; exact ⟨a, σ, s.draws, h⟩
  | nil =>
    rw [hs] at h
    dsimp only at h
    unfold freeStep at h
    match he : s.enabledAgents with
    | [] => rw [he] at h; cases h
    | [a] => rw [he] at h; exact ⟨a, s.schedule, s.draws, h⟩
    | a :: b :: l => rw [he] at h; exact ⟨_, s.schedule, s.draws + 1, h⟩

/-- An agent on the list of enabled agents is the enabled host or an enabled channel. -/
theorem mem_enabledAgents (s : State) (a : Agent) : a ∈ s.enabledAgents ↔
    (a = .host ∧ s.hostEnabled = true) ∨ ∃ k, a = .channel k ∧ s.channelEnabled k = true := by
  unfold State.enabledAgents
  rw [List.mem_append]
  refine or_congr ?_ ?_
  · split_ifs with h <;> simp [h]
  · simp only [List.mem_map, List.mem_filter]
    constructor
    · rintro ⟨k, ⟨-, hk⟩, rfl⟩; exact ⟨k, rfl, hk⟩
    · rintro ⟨k, rfl, hk⟩; exact ⟨k, ⟨Chan.mem_all k, hk⟩, rfl⟩

end Sys2Proof.Machine
end

