-- ==== Sys2Proof/Tests/Slice0.lean ====
section
/-! SUPPORT. Small tests, their expected results from spec/95_test_vectors.md and the examples of the operation files, and for
every statement with hypotheses a witness that they can be met together. -/

namespace Sys2Proof.Tests

open Sys2Proof Sys2Proof.Machine

/-! ## Well-formedness: each check refuses an ill-formed term (R82) -/

theorem test_wf_refuses_wide_src :
    (Instr.rgba8ToRgb8 ⟨0x100000000, 0x2000, 1, 1⟩).wf Config.default = false := by decide

theorem test_wf_refuses_wide_dst :
    (Instr.rgb565ToRgba5551 ⟨0x1000, 0x100000000, 1, 1⟩).wf Config.default = false := by decide

theorem test_wf_takes_the_top_address :
    (Instr.rgba8ToLa88 ⟨0xFFFFFFFF, 0xFFFFFFFF, 0xFFFFFFFF, 0xFFFFFFFF⟩).wf Config.default = true := by decide

/-! ## Decoding: words written out from R81, R87 and the descriptors of part 4 -/

theorem test_decode_ctrl_1 : decodeTableWord 32 0b00000000000000000000000000000_001 = some (.rgba8ToRgb8 ⟨0, 0, 0, 0⟩) := by
  decide
theorem test_decode_ctrl_2 : decodeTableWord 32 0b00000000000000000000000000000_010 = some (.rgba8ToRgb565 ⟨0, 0, 0, 0⟩) := by
  decide
theorem test_decode_ctrl_3 : decodeTableWord 32 0b00000000000000000000000000000_011 = some (.rgba8ToRgba4 ⟨0, 0, 0, 0⟩) := by
  decide
theorem test_decode_ctrl_4 : decodeTableWord 32 0b00000000000000000000000000000_100 = some (.rgba8ToLa88 ⟨0, 0, 0, 0⟩) := by
  decide
theorem test_decode_ctrl_5 : decodeTableWord 32 0b00000000000000000000000000000_101 = some (.rgb565ToRgba5551 ⟨0, 0, 0, 0⟩) := by
  decide

/-- Part 3: OP 0, 6, 7, and OP 1, 2 with a reserved bit of CTRL set. -/
theorem test_decode_reserved :
    [0b000, 0b110, 0b111, 0b1001, 0x80000002, 0xFFFFFFFF].map (decodeTableWord 32) = List.replicate 6 none := by decide

/-- The descriptors of P4, P1, P6, P3 and P2, words from the last (HEIGHT) down to the first (CTRL). -/
theorem test_decode_programs :
    decodeBits Config.default 0x00000003_00000001_00002000_00001000_00000001 = .cmd (.rgba8ToRgb8 ⟨0x1000, 0x2000, 1, 3⟩) ∧
    decodeBits Config.default 0x00000002_00000002_00002000_00001000_00000002 = .cmd (.rgba8ToRgb565 ⟨0x1000, 0x2000, 2, 2⟩) ∧
    decodeBits Config.default 0x00000001_00000002_00002000_00001000_00000003 = .cmd (.rgba8ToRgba4 ⟨0x1000, 0x2000, 2, 1⟩) ∧
    decodeBits Config.default 0x00000001_00000003_00002003_00001001_00000004 = .cmd (.rgba8ToLa88 ⟨0x1001, 0x2003, 3, 1⟩) ∧
    decodeBits Config.default 0x00000001_00000004_00003000_00002000_00000005 = .cmd (.rgb565ToRgba5551 ⟨0x2000, 0x3000, 4, 1⟩) := by
  decide

/-- R91's example, with the numbers in decimal. -/
theorem test_text : (Instr.rgba8ToRgb565 ⟨0x1000, 0x2000, 2, 2⟩).text = "rgba8_to_rgb565 4096, 8192, 2, 2" := by rfl

/-! ## The stages: rows of part 2 -/

/-- R135, and the rows 7, 3, 7, 0 and 171, 205, 239, 1. -/
theorem test_stage1 : [0xFF1E140A, 0x00070307, 0x01EFCDAB].map stage1 = [0x1E140A, 0x070307, 0xEFCDAB] := by decide

/-- R146, and the rows 8, 4, 8, 0; 247, 251, 247, 239; 15, 15, 15, 15. -/
theorem test_stage2 :
    [0x00FFFFFF, 0x00070307, 0x00080408, 0x78563412, 0xEFF7FBF7, 0x0F0F0F0F].map stage2 =
      [0xFFFF, 0x0000, 0x0821, 0x11AA, 0xF7DE, 0x0861] := by decide

/-- R156 and the permutation test (rows 14 to 17). -/
theorem test_stage3 :
    [0x0FF00FF0, 0xF00FF00F, 0x78563412, 0x00000010, 0x00001000, 0x00100000, 0x10000000].map stage3 =
      [0xF0F0, 0x0F0F, 0x1357, 0x1000, 0x0100, 0x0010, 0x0001] := by decide

/-- R170, and the rows with a whole-number quotient (13, 13, 13, 9; 0, 28, 152, 7; 0, 1, 184, 0). -/
theorem test_stage4 :
    [0xC8000000, 0x01FFFFFF, 0x803264C8, 0xFF1E140A, 0x090D0D0D, 0x07981C00, 0x00B80100].map (stage4 .default) =
      [0xC800, 0x01FF, 0x8075, 0xFF12, 0x090D, 0x071F, 0x000E] := by decide

/-- Part 2.3: the lost top bit, green's low and top bit, R182. -/
theorem test_stage5 :
    [0x0000, 0xFFFF, 0x8000, 0x7FFF, 0x0020, 0x0400, 0xF800, 0x1234, 0xABCD].map stage5 =
      [0x0001, 0xFFFF, 0x0001, 0xFFFF, 0x0041, 0x0801, 0xF001, 0x2469, 0x579B] := by decide

/-- Part 2.2: truncated, not rounded; white is 255; the primaries. -/
theorem test_luma :
    luma .default 50 100 150 = 92 ∧ luma .default 255 255 255 = 255 ∧ luma .default 255 0 0 = 54 ∧
    luma .default 0 255 0 = 182 ∧ luma .default 0 0 255 = 18 ∧ luma .default 0 136 24 = 99 := by decide

/-- R163, the note on D9: IEEE double gives 254 for white and 98 for (0, 136, 24); elsewhere R162's value, listed or not. -/
theorem test_luma_of_a_floating_point_configuration :
    let c : Config := { addrW := 32, lumaArith := .oneLowAt [(255, 255, 255), (0, 136, 24), (50, 100, 150)] }
    luma c 255 255 255 = 254 ∧ luma c 0 136 24 = 98 ∧ luma c 50 100 150 = 92 ∧ luma c 13 13 13 = 13 := by decide

/-! ## Small states -/

/-- One pass in flight on channel `k`, over the given memory. -/
def withPass (k : Chan) (p : Pass) (m : Memory) : State := { State.reset with ch := State.reset.ch.set k (some p), mem := m }

/-- Memory where an outcome has one. -/
def memOf : Host.Outcome State Fault Refusal → Option Memory
  | .next s => some s.mem
  | _ => none

/-- The state of an outcome, where it has one. -/
def stateOf : Host.Outcome State Fault Refusal → Option State
  | .next s => some s
  | _ => none

/-- The refusal of an outcome, where it is one. -/
def refusalOf : Host.Outcome State Fault Refusal → Option Refusal
  | .refused r => some r
  | _ => none

/-- What an outcome answers as a next state it answers. -/
theorem of_stateOf {x : Host.Outcome State Fault Refusal} {s : State} (h : stateOf x = some s) : x = .next s := by
  cases x <;> simp_all [stateOf]

theorem of_refusalOf {x : Host.Outcome State Fault Refusal} {r : Refusal} (h : refusalOf x = some r) : x = .refused r := by
  cases x <;> simp_all [refusalOf]

/-! ## One pixel step of each channel -/

/-- P4, second pixel: three destination bytes at an odd address, alpha nowhere. -/
theorem test_pixel_rgba8_to_rgb8 :
    memOf (channelStep .ch1 (withPass .ch1 ⟨0x1000, 0x2000, 3, 1⟩
      [(0x1004, 0x01), (0x1006, 0xFF), (0x1007, 0x80), (0x2004, 0xEE), (0x2006, 0xEE)])) =
    some [(0x1004, 0x01), (0x1006, 0xFF), (0x1007, 0x80), (0x2003, 0x01), (0x2005, 0xFF), (0x2006, 0xEE)] := by decide

/-- P1, fourth pixel: low byte first. -/
theorem test_pixel_rgba8_to_rgb565 :
    memOf (channelStep .ch2 (withPass .ch2 ⟨0x1000, 0x2000, 4, 3⟩
      [(0x100C, 0x12), (0x100D, 0x34), (0x100E, 0x56), (0x100F, 0x78), (0x2006, 0xEE), (0x2008, 0xEE)])) =
    some [(0x100C, 0x12), (0x100D, 0x34), (0x100E, 0x56), (0x100F, 0x78), (0x2006, 0xAA), (0x2007, 0x11), (0x2008, 0xEE)] := by
  decide

/-- R163, R164: the configuration's luma reaches the pixel step. White converts to 254 in IEEE double. -/
theorem test_pixel_of_a_floating_point_configuration :
    memOf (channelStep .ch4 { withPass .ch4 ⟨0x1000, 0x2000, 1, 0⟩
        [(0x1000, 0xFF), (0x1001, 0xFF), (0x1002, 0xFF), (0x1003, 0x01)] with
        cfg := { addrW := 32, lumaArith := .oneLowAt [(255, 255, 255)] } }) =
    some [(0x1000, 0xFF), (0x1001, 0xFF), (0x1002, 0xFF), (0x1003, 0x01), (0x2000, 0xFE), (0x2001, 0x01)] := by decide

/-- P6, second pixel of channel 3. -/
theorem test_pixel_rgba8_to_rgba4 :
    memOf (channelStep .ch3 (withPass .ch3 ⟨0x1000, 0x2000, 2, 1⟩
      [(0x1004, 0x64), (0x1005, 0x96), (0x1006, 0xC8), (0x1007, 0xFA)])) =
    some [(0x1004, 0x64), (0x1005, 0x96), (0x1006, 0xC8), (0x1007, 0xFA), (0x2002, 0xCF), (0x2003, 0x69)] := by decide

/-- P3, third pixel: neither address aligned. -/
theorem test_pixel_rgba8_to_la88 :
    memOf (channelStep .ch4 (withPass .ch4 ⟨0x1001, 0x2003, 3, 2⟩
      [(0x1009, 0xC8), (0x100A, 0x64), (0x100B, 0x32), (0x100C, 0x80)])) =
    some [(0x1009, 0xC8), (0x100A, 0x64), (0x100B, 0x32), (0x100C, 0x80), (0x2007, 0x75), (0x2008, 0x80)] := by decide

/-- Part 2.4: source bytes 34 12 give 69 24. -/
theorem test_pixel_rgb565_to_rgba5551 :
    memOf (channelStep .ch5 (withPass .ch5 ⟨0x1000, 0x2000, 1, 0⟩ [(0x1000, 0x34), (0x1001, 0x12)])) =
    some [(0x1000, 0x34), (0x1001, 0x12), (0x2000, 0x69), (0x2001, 0x24)] := by decide

/-! ## The issue checks: part 3's table, every channel idle and exactly the regions lent unless said otherwise -/

/-- Channel 2 busy with the destination region 0x2000 to 0x2007. -/
def busy2 : State := withPass .ch2 ⟨0x1000, 0x2000, 4, 1⟩ [(0x1000, 0xFF), (0x1004, 0x07), (0x2000, 0xFF), (0x2001, 0xFF)]

/-- The situation of P6 after its third step: channels 3 and 4 in flight, sharing their source. -/
def p6 : State :=
  { State.reset with
    ch  := { State.reset.ch with ch3 := some ⟨0x1000, 0x2000, 2, 1⟩, ch4 := some ⟨0x1000, 0x2010, 2, 0⟩ }
    mem := [(0x1000, 0xF0), (0x1001, 0x0F), (0x1002, 0xF0), (0x1003, 0x0F), (0x1004, 0x64), (0x1005, 0x96), (0x1006, 0xC8),
            (0x1007, 0xFA), (0x2000, 0xF0), (0x2001, 0xF0), (0x2002, 0xEE), (0x2003, 0xEE), (0x2010, 0xEE), (0x2011, 0xEE),
            (0x2012, 0xEE), (0x2013, 0xEE)] }

/-- `p6` before channel 4 was issued. -/
def busy3 : State := { p6 with ch := { p6.ch with ch4 := none } }

def lending (s : State) (input output : Region) : State := { s with lent := .buffers input output }

theorem test_issue_accepted :
    (stateOf (exec (.rgba8ToRgb8 ⟨0x1000, 0x100C, 3, 1⟩) .reset)).isSome ∧
    (stateOf (exec (.rgba8ToRgba4 ⟨0x2004, 0x2000, 2, 1⟩) .reset)).isSome ∧
    (stateOf (exec (.rgba8ToRgb565 ⟨0xFFFFFFF8, 0x1000, 2, 1⟩) .reset)).isSome ∧
    (stateOf (exec (.rgba8ToRgb565 ⟨0x1000, 0x2000, 2, 2⟩) (lending .reset ⟨0x1000, 16⟩ ⟨0x2000, 64⟩))).isSome ∧
    (stateOf (exec (.rgba8ToLa88 ⟨0xFFFFFFFF, 0xFFFFFFFF, 0, 9⟩) .reset)).isSome ∧
    (stateOf (exec (.rgba8ToLa88 ⟨0x1000, 0x2010, 2, 1⟩) busy3)).isSome := by decide

theorem test_issue_refused :
    refusalOf (exec (.rgba8ToRgb8 ⟨0x1000, 0x100B, 3, 1⟩) .reset) = some .bufferOverlap ∧
    refusalOf (exec (.rgba8ToRgb8 ⟨0x1000, 0x1000, 3, 1⟩) .reset) = some .bufferOverlap ∧
    refusalOf (exec (.rgb565ToRgba5551 ⟨0x2000, 0x2000, 4, 1⟩) .reset) = some .bufferOverlap ∧
    refusalOf (exec (.rgba8ToRgb565 ⟨0xFFFFFFFC, 0x1000, 2, 1⟩) .reset) = some .addressWrap ∧
    refusalOf (exec (.rgba8ToRgb565 ⟨0x1000, 0x2000, 0x10000, 0x10000⟩) .reset) = some .addressWrap ∧
    refusalOf (exec (.rgba8ToRgb565 ⟨0x1000, 0x2000, 2, 2⟩) (lending .reset ⟨0x1000, 16⟩ ⟨0x2000, 6⟩)) =
      some .invalidBufferSize ∧
    refusalOf (exec (.rgb565ToRgba5551 ⟨0x2000, 0x3000, 4, 1⟩) busy2) = some .channelConflict ∧
    refusalOf (exec (.rgba8ToLa88 ⟨0x1000, 0x2002, 2, 1⟩) busy3) = some .channelConflict := by decide

/-- The last row of part 3: held, not refused. -/
theorem test_issue_held : stateOf (exec (.rgba8ToRgba4 ⟨0x5000, 0x6000, 1, 1⟩) busy3) = some busy3 := by decide

/-- The first step after reset runs the fetched command, for each of the five (log 15). -/
theorem test_first_step_after_reset :
    [1, 2, 3, 4, 5].map (fun w => (stateOf (step (State.reset.withFetchWord 32 w))).map State.status) =
      [some ⟨true, false, false, false, false⟩, some ⟨false, true, false, false, false⟩,
       some ⟨false, false, true, false, false⟩, some ⟨false, false, false, true, false⟩,
       some ⟨false, false, false, false, true⟩] := by decide

/-- P7 (a): the all-zero descriptor. -/
theorem test_reserved_is_refused : refusalOf (step (State.reset.withFetchWord 32 0)) = some .reservedEncoding := by decide

/-- P7 (h) and (i), and the read R226 allows. -/
theorem test_lease :
    refusalOf (hostStep { busy2 with host := [.read 0x2000] }) = some .leaseViolation ∧
    refusalOf (hostStep { busy2 with host := [.write 0x1004 0] }) = some .leaseViolation ∧
    (stateOf (hostStep { busy2 with host := [.read 0x1004] })).map State.seen = some [.byte 0x1004 0x07] := by decide

/-- P8: after the reset channel 2 is idle, no done event was signalled, and the source is unchanged. -/
theorem test_reset_during_a_pass :
    (stateOf (hostStep { busy2 with host := [.reset] })).map (fun s => (s.ch.get .ch2, s.seen, s.host)) =
      some (none, [], []) := by decide

/-! ## Witnesses -/

theorem apart_of_overlaps {r q : Region} (h : r.overlaps q = false) : Apart r q := fun a ⟨h1, h2⟩ => by
  rw [(Region.not_overlaps_iff r q).1 h a h1] at h2
  cases h2

/-- The contract in a state with every channel idle and exactly the regions lent. -/
theorem contract_idle {s : State} {k : Chan} {o : Operands} (hi : ∀ j, s.ch.get j = none) (hl : s.lent = .exact)
    (h1 : o.src + pixelCount o * k.srcBytes ≤ s.cfg.space) (h2 : o.dst + pixelCount o * k.dstBytes ≤ s.cfg.space)
    (h3 : (srcRegionOf k o).overlaps (dstRegionOf k o) = false) : Contract s k o :=
  ⟨h1, h2, by rw [hl]; trivial, apart_of_overlaps h3, fun j q _ hq => by rw [hi j] at hq; cases hq⟩

theorem reset_idle (k : Chan) : State.reset.ch.get k = none := by cases k <;> rfl

theorem busy2_inv : busy2.Inv where
  memWf := by decide
  memSpace := by decide
  addrWidth := fun k p h => by cases k <;> first | (cases h; decide) | cases h
  indexBound := fun k p h => by cases k <;> first | (cases h; decide) | cases h
  regionSpace := fun k p h => by cases k <;> first | (cases h; decide) | cases h
  ownDisjoint := fun k p h => by cases k <;> first | (cases h; decide) | cases h
  pairDisjoint := fun j k p q e hj hk => by
    cases j <;> first | (cases hj; cases k <;> first | exact absurd rfl e | cases hk) | cases hj

theorem p6_inv : p6.Inv where
  memWf := by decide
  memSpace := by decide
  addrWidth := fun k p h => by cases k <;> first | (cases h; decide) | cases h
  indexBound := fun k p h => by cases k <;> first | (cases h; decide) | cases h
  regionSpace := fun k p h => by cases k <;> first | (cases h; decide) | cases h
  ownDisjoint := fun k p h => by cases k <;> first | (cases h; decide) | cases h
  pairDisjoint := fun j k p q e hj hk => by
    cases j <;> first
      | (cases hj; cases k <;> first | exact absurd rfl e | (cases hk; decide) | cases hk)
      | cases hj

/-- The invariant reads no field but these three. -/
theorem inv_of_eq {s t : State} (h : s.Inv) (h1 : t.cfg = s.cfg) (h2 : t.ch = s.ch) (h3 : t.mem = s.mem) : t.Inv := by
  obtain ⟨a, b, c, d, e, f, g⟩ := h
  refine ⟨?_, ?_, ?_, ?_, ?_, ?_, ?_⟩ <;> (simp only [h1, h2, h3]; assumption)

/-! ### Encoding and stages -/

theorem witness_DecodingLooksAtCtrlAlone :
    [1, 2, 3, 4, 5, 0, 6].map (fun c => (Descriptor.mk c 0x1000 0x2000 2 2).ctrl.toNat) = [1, 2, 3, 4, 5, 0, 6] ∧
    (Descriptor.mk 1 0x1000 0x2000 2 2).decode = .cmd (.rgba8ToRgb8 ⟨0x1000, 0x2000, 2, 2⟩) := by decide

theorem witness_ReservedDescriptorsAreRefused :
    (0#32).toNat % 8 = 0 ∧ (6#32).toNat % 8 = 6 ∧ (7#32).toNat % 8 = 7 ∧ (9#32).toNat / 8 ≠ 0 ∧
    (∃ s : State, s.schedule = .host :: [] ∧ s.host = .issue 9 .exact :: [] ∧
      ¬ (1 ≤ (Descriptor.ofBits s.cfg 9).ctrl.toNat ∧ (Descriptor.ofBits s.cfg 9).ctrl.toNat ≤ 5)) :=
  ⟨by decide, by decide, by decide, by decide,
    { State.reset with host := [.issue 9 .exact], schedule := [.host] }, rfl, rfl, by decide⟩

theorem witness_DecodeOfEncodeIsTheCommand :
    let o : Operands := ⟨0xFFFFFFFF, 0, 0xFFFFFFFF, 0⟩
    (Instr.rgba8ToRgb8 o).wf Config.default = true ∧ (Instr.rgba8ToRgb565 o).wf Config.default = true ∧
    (Instr.rgba8ToRgba4 o).wf Config.default = true ∧ (Instr.rgba8ToLa88 o).wf Config.default = true ∧
    (Instr.rgb565ToRgba5551 o).wf Config.default = true := by decide

theorem witness_EncodeOfDecodeIsTheDescriptor :
    0xFFFFFFFF_00000002_00002000_FFFFFFFF_00000005 < 2 ^ (96 + 2 * Config.default.addrW) ∧
    decodeBits Config.default 0xFFFFFFFF_00000002_00002000_FFFFFFFF_00000005 =
      .cmd (.rgb565ToRgba5551 ⟨0xFFFFFFFF, 0x2000, 2, 0xFFFFFFFF⟩) := by decide

theorem witness_LumaLaws :
    Config.default.lumaArith = .exact ∧ ((0 : U8) ≤ 255 ∧ (28 : U8) ≤ 29 ∧ (152 : U8) ≤ 152) ∧
    (red 0xFF1E140A = red 0x001E140A ∧ green 0xFF1E140A = green 0x001E140A ∧ blue 0xFF1E140A = blue 0x001E140A) ∧
    alpha 0xC8000000 = alpha 0xC8FFFFFF := by decide

theorem witness_Stage4IsLumaAndAlpha : Config.default.lumaArith = .exact := rfl

/-- Whole sums (white, the least grey above black) and one that is not. -/
theorem witness_LumaOfAConfigurationDiffersOnlyAtWholeSums :
    lumaSum 255 255 255 % 10000 = 0 ∧ lumaSum 1 1 1 % 10000 = 0 ∧
    lumaSum (red 0xFF1E140A) (green 0xFF1E140A) (blue 0xFF1E140A) % 10000 ≠ 0 ∧
    (∀ r g b, (luma .default r g b).toNat = lumaSum r g b / 10000) :=
  ⟨by decide, by decide, by decide, fun r g b => by rw [luma_toNat]; rfl⟩

theorem witness_Stage5ShiftsTheWholeWord : (0x0001 : U16).toNat % 2 = 1 ∧ (0xFFFF : U16).toNat % 2 = 1 := by decide

theorem witness_DroppedBitsInfluenceNothing :
    (0xFF1E140A : U32).extractLsb' 0 24 = (0x001E140A : U32).extractLsb' 0 24 ∧
    (0xFF070307 : U32) &&& 0x00F8FCF8 = 0 &&& 0x00F8FCF8 ∧ (0x0F0F0F0F : U32) &&& 0xF0F0F0F0 = 0 &&& 0xF0F0F0F0 := by decide

theorem witness_MemoryPrimitivesAreLittleEndian :
    Memory.wf [(0x1000, 0x34), (0x1001, 0x12)] = true ∧ 1 < 2 ∧ (0xFFF < 0x1000 ∨ 0x1000 + 2 ≤ 0xFFF) := by decide

/-! ### Issue -/

theorem witness_CommandsAreAcceptedUnderTheContract :
    (∀ k, State.reset.ch.get k = none) ∧ Contract .reset .ch1 ⟨0x1000, 0x100C, 3, 1⟩ ∧
    Contract .reset .ch2 ⟨0xFFFFFFF8, 0x1000, 2, 1⟩ ∧ Contract .reset .ch3 ⟨0x2004, 0x2000, 2, 1⟩ ∧
    Contract .reset .ch4 ⟨0x1001, 0x2003, 3, 1⟩ ∧ Contract .reset .ch5 ⟨0x2000, 0x3000, 4, 1⟩ := by
  refine ⟨reset_idle, ?_, ?_, ?_, ?_, ?_⟩ <;> exact contract_idle reset_idle rfl (by decide) (by decide) (by decide)

/-- Shared source with a pass in flight (P6, R117). -/
theorem witness_CommandsAreAcceptedBesideAnother :
    busy3.ch.get .ch4 = none ∧ Contract busy3 .ch4 ⟨0x1000, 0x2010, 2, 1⟩ := by
  refine ⟨rfl, by decide, by decide, trivial, apart_of_overlaps (by decide), fun j q _ hq => ?_⟩
  cases j <;> first
    | (cases hq; exact ⟨apart_of_overlaps (by decide), apart_of_overlaps (by decide), apart_of_overlaps (by decide)⟩)
    | cases hq

/-- One set of operands for each clause: no fit, no grant, overlap, conflict. -/
theorem witness_FirstFailedCheckNamesTheRefusal :
    (∀ k, State.reset.ch.get k = none) ∧ busy2.ch.get .ch5 = none ∧
    ¬ ((0xFFFFFFF9 : Nat) + pixelCount ⟨0xFFFFFFF9, 0x1000, 2, 1⟩ * Chan.ch2.srcBytes ≤ State.reset.cfg.space) ∧
    (0x1000 + pixelCount ⟨0x1000, 0x2000, 2, 2⟩ * Chan.ch2.srcBytes ≤ State.reset.cfg.space ∧
      0x2000 + pixelCount ⟨0x1000, 0x2000, 2, 2⟩ * Chan.ch2.dstBytes ≤ State.reset.cfg.space ∧
      ¬ Granted (.buffers ⟨0x1000, 16⟩ ⟨0x2000, 7⟩) (srcRegionOf .ch2 ⟨0x1000, 0x2000, 2, 2⟩)
        (dstRegionOf .ch2 ⟨0x1000, 0x2000, 2, 2⟩)) ∧
    ¬ Apart (srcRegionOf .ch1 ⟨0x1000, 0x100B, 3, 1⟩) (dstRegionOf .ch1 ⟨0x1000, 0x100B, 3, 1⟩) ∧
    (Apart (srcRegionOf .ch5 ⟨0x2000, 0x3000, 4, 1⟩) (dstRegionOf .ch5 ⟨0x2000, 0x3000, 4, 1⟩) ∧
      ¬ NoConflict busy2 .ch5 (srcRegionOf .ch5 ⟨0x2000, 0x3000, 4, 1⟩) (dstRegionOf .ch5 ⟨0x2000, 0x3000, 4, 1⟩)) := by
  refine ⟨reset_idle, rfl, by decide, ⟨by decide, by decide, fun h => ?_⟩, fun h => ?_, apart_of_overlaps (by decide),
    fun h => ?_⟩
  · exact absurd (h.2 0x2007 (by decide)) (by decide)
  · exact h 0x100B (by decide)
  · exact (h .ch2 _ (by decide) rfl).2.2 0x2000 (by decide)

theorem witness_CommandForABusyChannelIsHeld :
    busy3.busy (instrChan (.rgba8ToRgba4 ⟨0x5000, 0x6000, 1, 1⟩)) = true ∧
    (∃ s : State, s.schedule = .host :: [] ∧ s.host = .issue 3 .exact :: [] ∧
      decodeBits s.cfg 3 = .cmd (.rgba8ToRgba4 ⟨0, 0, 0, 0⟩) ∧ s.busy .ch3 = true) :=
  ⟨by decide, { busy3 with host := [.issue 3 .exact], schedule := [.host] }, rfl, rfl, by decide, by decide⟩

theorem witness_IssueChangesOnlyItsChannelRecord :
    exec (.rgba8ToLa88 ⟨0x1000, 0x2010, 2, 1⟩) busy3 =
      .next { busy3 with ch := { busy3.ch with ch4 := some ⟨0x1000, 0x2010, 2, 0⟩ } } := of_stateOf (by decide)

theorem witness_OnlyThePixelCountMatters : (2 : U32).toNat * (2 : U32).toNat = (4 : U32).toNat * (1 : U32).toNat := by decide

theorem witness_ZeroSizeCommandTouchesNothing :
    State.reset.ch.get .ch4 = none ∧ (Instr.rgba8ToLa88 ⟨0xFFFFFFFF, 0xFFFFFFFF, 0, 9⟩).wf State.reset.cfg = true ∧
    (0 : U32).toNat * (9 : U32).toNat = 0 ∧ (9 : U32).toNat * (0 : U32).toNat = 0 := by decide

theorem witness_IssueStartsThePass :
    busy3.ch.get .ch4 = none ∧ ∃ t, exec (.rgba8ToLa88 ⟨0x1000, 0x2010, 2, 1⟩) busy3 = .next t :=
  ⟨rfl, _, witness_IssueChangesOnlyItsChannelRecord⟩

theorem witness_ChainedConversionNeedsAWait :
    busy2.ch.get .ch2 = some ⟨0x1000, 0x2000, 4, 1⟩ ∧ busy2.ch.get .ch5 = none ∧
    pixelCount ⟨0x2000, 0x3000, 4, 1⟩ = 4 ∧ 0x2000 + 2 * 4 ≤ busy2.cfg.space ∧ 0x3000 + 2 * 4 ≤ busy2.cfg.space ∧
    Granted busy2.lent (srcRegionOf .ch5 ⟨0x2000, 0x3000, 4, 1⟩) (dstRegionOf .ch5 ⟨0x2000, 0x3000, 4, 1⟩) ∧
    Apart (srcRegionOf .ch5 ⟨0x2000, 0x3000, 4, 1⟩) (dstRegionOf .ch5 ⟨0x2000, 0x3000, 4, 1⟩) ∧
    NoConflict (retire .ch2 busy2) .ch5 (srcRegionOf .ch5 ⟨0x2000, 0x3000, 4, 1⟩)
      (dstRegionOf .ch5 ⟨0x2000, 0x3000, 4, 1⟩) :=
  ⟨rfl, rfl, by decide, by decide, by decide, trivial, apart_of_overlaps (by decide), fun j q _ hq => by
    cases j <;> cases hq⟩

/-- In place, and sharing one address (0x100B). -/
theorem witness_InPlaceConversionIsRefused :
    (∀ k, State.reset.ch.get k = none) ∧ 0 < pixelCount ⟨0x2000, 0x2000, 4, 1⟩ ∧
    (∀ k, 0x2000 + (srcRegionOf k ⟨0x2000, 0x2000, 4, 1⟩).len ≤ State.reset.cfg.space ∧
      0x2000 + (dstRegionOf k ⟨0x2000, 0x2000, 4, 1⟩).len ≤ State.reset.cfg.space ∧
      Granted State.reset.lent (srcRegionOf k ⟨0x2000, 0x2000, 4, 1⟩) (dstRegionOf k ⟨0x2000, 0x2000, 4, 1⟩)) ∧
    (∃ a, (srcRegionOf .ch1 ⟨0x1000, 0x100B, 3, 1⟩).has a = true ∧ (dstRegionOf .ch1 ⟨0x1000, 0x100B, 3, 1⟩).has a = true) :=
  ⟨reset_idle, by decide, fun k => ⟨by cases k <;> decide, by cases k <;> decide, trivial⟩, 0x100B, by decide⟩

/-! ### Channel steps -/

theorem witness_PixelStepConvertsOnePixel :
    ∀ k : Chan, ∃ (p : Pass) (s : State), s.mem.wf = true ∧ s.ch.get k = some p ∧ p.idx < p.n ∧
      p.src + p.n * k.srcBytes ≤ s.cfg.space ∧ p.dst + p.n * k.dstBytes ≤ s.cfg.space := fun k =>
  ⟨⟨0x1000, 0x2000, 1, 0⟩, withPass k ⟨0x1000, 0x2000, 1, 0⟩ [], rfl, by cases k <;> rfl, by decide,
    by cases k <;> decide, by cases k <;> decide⟩

theorem witness_RetireSignalsDoneAndEndsTheLease :
    ∀ k : Chan, ∃ (p q : Pass) (s t : State), s.ch.get k = some p ∧ p.idx = p.n ∧ p.n = 0 ∧ t.ch.get k = some q ∧
      q.idx = q.n ∧ q.n = 4 := fun k =>
  ⟨⟨0, 0, 0, 0⟩, ⟨0x1000, 0x2000, 4, 4⟩, withPass k ⟨0, 0, 0, 0⟩ [], withPass k ⟨0x1000, 0x2000, 4, 4⟩ [],
    by cases k <;> rfl, rfl, rfl, by cases k <;> rfl, rfl, rfl⟩

/-- The same source pixel at two places and indices. -/
theorem witness_WrittenPixelDependsOnlyOnItsSourceBytes :
    let s := withPass .ch5 ⟨0x1000, 0x2000, 1, 0⟩ [(0x1000, 0x34), (0x1001, 0x12)]
    let s' := withPass .ch5 ⟨0x3000, 0x4000, 3, 2⟩ [(0x3004, 0x34), (0x3005, 0x12)]
    s.mem.wf = true ∧ s'.mem.wf = true ∧ (stateOf (channelStep .ch5 s)).isSome ∧ (stateOf (channelStep .ch5 s')).isSome ∧
    (∀ j, j < 2 → s.mem.read (0x1000 + 0 * 2 + j) = s'.mem.read (0x3000 + 2 * 2 + j)) := by decide

theorem witness_SequencingIgnoresPixelData :
    (stateOf (channelStep .ch2 busy2)).isSome ∧
    (∃ s r, channelStep .ch5 s = .refused r) :=
  ⟨by decide, withPass .ch5 ⟨0xFFFFFFFF, 0, 1, 0⟩ [], .addressWrap, rfl⟩

/-- The three kinds of address: outside every destination region, in a source region, outside the stepping channel's region. -/
theorem witness_BlockWritesOnlyDestinationRegions :
    p6.Inv ∧ (stateOf (channelStep .ch4 p6)).isSome ∧
    (∀ j q, p6.ch.get j = some q → (q.dstRegion j).has 0x2004 = false) ∧
    (Pass.srcRegion ⟨0x1000, 0x2000, 2, 1⟩ .ch3).has 0x1007 = true ∧
    (∀ q, p6.ch.get .ch4 = some q → (q.dstRegion .ch4).has 0x2000 = false) :=
  ⟨p6_inv, by decide, fun j q h => (by cases j <;> first | (cases h; decide) | (cases h)), by decide,
    fun q h => (by cases h; decide)⟩

/-- A pixel step, a retire step, a reset, and an issue. -/
theorem witness_ChannelRecordOnlyAdvances :
    (stateOf (step { busy2 with schedule := [.channel .ch2] })).map (fun t => t.ch.get .ch2) =
      some (some ⟨0x1000, 0x2000, 4, 2⟩) ∧
    (stateOf (step { withPass .ch2 ⟨0, 0, 0, 0⟩ [] with schedule := [.channel .ch2] })).map (fun t => t.ch.get .ch2) =
      some none ∧
    (stateOf (step { busy2 with schedule := [.host], host := [.reset] })).map (fun t => t.ch.get .ch2) = some none ∧
    (stateOf (step (State.reset.withFetchWord 32 2))).map (fun t => t.ch.get .ch2) = some (some ⟨0, 0, 0, 0⟩) := by decide

/-! ### The host's moves -/

theorem witness_StepRunsTheDecodedCommand :
    ∃ (s : State) (bits : Nat) (i : Instr), s.host = .issue bits .exact :: [] ∧ decodeBits s.cfg bits = .cmd i ∧
      s.ch.get (instrChan i) = none ∧ s.schedule = [] ∧ (∀ k, s.channelEnabled k = false) :=
  ⟨{ State.reset with host := [.issue 0x00000002_00000002_00002000_00001000_00000002 .exact] },
    0x00000002_00000002_00002000_00001000_00000002, .rgba8ToRgb565 ⟨0x1000, 0x2000, 2, 2⟩, rfl, by decide, rfl, rfl,
    fun k => by cases k <;> rfl⟩

theorem witness_FetchedWordIsRunNext :
    decodeBits State.reset.cfg (5 % 2 ^ 32) = .cmd (.rgb565ToRgba5551 ⟨0, 0, 0, 0⟩) ∧ State.reset.ch.get .ch5 = none := by
  decide

theorem witness_StatusReadGivesTheBusyBits : ({ p6 with host := [.status] } : State).host = .status :: [] := rfl

theorem witness_WaitPassesWhenTheChannelIsIdle :
    ({ p6 with host := [.wait .ch1] } : State).host = .wait .ch1 :: [] ∧ p6.ch.get .ch1 = none ∧
    p6.ch.get .ch3 = some ⟨0x1000, 0x2000, 2, 1⟩ := ⟨rfl, rfl, rfl⟩

/-- The last byte of a source region, the last of a destination region, and the byte after it, which is not leased. -/
theorem witness_LeaseRulesAreEnforced :
    p6.Inv ∧ 0x2014 < p6.cfg.space ∧ p6.ch.get .ch4 = some ⟨0x1000, 0x2010, 2, 0⟩ ∧
    (Pass.srcRegion ⟨0x1000, 0x2010, 2, 0⟩ .ch4).has 0x1007 = true ∧
    (Pass.dstRegion ⟨0x1000, 0x2010, 2, 0⟩ .ch4).has 0x2013 = true ∧
    (∀ k p, p6.ch.get k = some p → (p.srcRegion k).has 0x2014 = false ∧ (p.dstRegion k).has 0x2014 = false) :=
  ⟨p6_inv, by decide, rfl, by decide, by decide, fun k p h => by cases k <;> first | (cases h; decide) | cases h⟩

/-- A byte outside and a byte inside the region cut short. -/
theorem witness_ResetIdlesEveryChannel :
    busy2.mem.wf = true ∧ ({ busy2 with host := [.reset] } : State).host = .reset :: [] ∧
    (∀ k p, busy2.ch.get k = some p → (p.dstRegion k).has 0x2008 = false) ∧
    (Pass.dstRegion ⟨0x1000, 0x2000, 4, 1⟩ .ch2).has 0x2007 = true :=
  ⟨by decide, rfl, fun k p h => (by cases k <;> first | (cases h; decide) | (cases h)), by decide⟩

theorem witness_ResetWhenIdleChangesNothing :
    (∀ k, ({ State.reset with host := [.reset] } : State).ch.get k = none) ∧
    ({ State.reset with host := [.reset] } : State).host = .reset :: [] := ⟨reset_idle, rfl⟩

theorem witness_FinalStateWaitsForTheHost : State.reset.final ∧ State.reset.schedule = [] := ⟨⟨rfl, reset_idle⟩, rfl⟩

/-! ### The whole machine -/

/-- `p6` with one turn of channel 3. -/
theorem p6_turn_inv (σ : List Agent) : ({ p6 with schedule := σ } : State).Inv := inv_of_eq p6_inv rfl rfl rfl

theorem witness_EveryStepKeepsTheInvariant :
    ({ p6 with schedule := [.channel .ch3] } : State).Inv ∧ (stateOf (step { p6 with schedule := [.channel .ch3] })).isSome :=
  ⟨p6_turn_inv _, by decide⟩

/-- P1's first two steps from reset. -/
theorem witness_ReachableStatesMeetR34 :
    Memory.wf [(0x1000, 0xFF)] = true ∧ (∀ x ∈ ([(0x1000, 0xFF)] : Memory), x.1 < Config.default.space) ∧
    (stateOf (run 2 { State.reset with
      cfg := Config.default, mem := [(0x1000, 0xFF)],
      host := [.issue 0x00000002_00000002_00002000_00001000_00000002 .exact],
      schedule := [.host, .channel .ch2] })).map (fun t => t.ch.get .ch2) = some (some ⟨0x1000, 0x2000, 4, 1⟩) := by
  decide

/-- The lowest address that does not exist, read and written. -/
theorem witness_ChannelsNeverFault :
    p6.Inv ∧ p6.cfg.space ≤ 0x100000000 ∧ (∃ s : State, s.Inv ∧ s.host = [.read 0x100000000]) ∧
    (∃ s : State, s.Inv ∧ s.host = [.write 0x100000000 0]) :=
  ⟨p6_inv, by decide, ⟨{ p6 with host := [.read 0x100000000] }, inv_of_eq p6_inv rfl rfl rfl, rfl⟩,
    ⟨{ p6 with host := [.write 0x100000000 0] }, inv_of_eq p6_inv rfl rfl rfl, rfl⟩⟩

/-- One refusal of each kind, from states that meet the invariant: reserved CTRL, the four checks of R102 on an idle channel, an
address that does not exist, and the lease. -/
theorem witness_EveryRefusalIsOfTheClosedList :
    p6.Inv ∧
    [HostMove.issue 0x6 .exact, .issue 0x00000001_00000001_FFFFFFFF_00000000_00000001 .exact,
     .issue 0x00000001_00000001_00005000_00006000_00000001 (.buffers ⟨0x6000, 3⟩ ⟨0x5000, 3⟩),
     .issue 0x00000001_00000001_00005000_00005002_00000001 .exact,
     .issue 0x00000001_00000001_00002000_00005000_00000001 .exact, .read 0x100000000, .read 0x2000, .write 0x1000 0].map
      (fun m => refusalOf (step { p6 with host := [m], schedule := [.host] })) =
    [some .reservedEncoding, some .addressWrap, some .invalidBufferSize, some .bufferOverlap, some .channelConflict,
     some .addressWrap, some .leaseViolation, some .leaseViolation] :=
  ⟨p6_inv, by decide⟩

/-- The pass of channel 3 of `p6` under way, whose issue found the memory `p6` now has in its source region. -/
theorem p6_underway : PassUnderway .ch3 0x1000 0x2000 2 p6.mem p6 :=
  ⟨⟨1, rfl, fun i hi => by
    have : i = 0 := by omega
    subst this
    unfold pixelConverted
    decide⟩, fun _ _ _ => rfl⟩

/-- A pixel step, a retire step and a reset of a pass under way. -/
theorem witness_PassProgressesUntilDoneOrReset :
    p6.Inv ∧ PassUnderway .ch3 0x1000 0x2000 2 p6.mem p6 ∧
    (stateOf (step { p6 with schedule := [.channel .ch3] })).isSome ∧
    (stateOf (step { p6 with schedule := [.host], host := [.reset] })).isSome ∧
    PassUnderway .ch3 0x1000 0x2000 0 [] (withPass .ch3 ⟨0x1000, 0x2000, 0, 0⟩ []) ∧
    (stateOf (step { withPass .ch3 ⟨0x1000, 0x2000, 0, 0⟩ [] with schedule := [.channel .ch3] })).isSome :=
  ⟨p6_inv, p6_underway, by decide, by decide, ⟨⟨0, rfl, fun i hi => absurd hi (by omega)⟩, fun _ _ _ => rfl⟩, by decide⟩

/-- The end of P6, reached by two interleavings; which `done` came last differs, memory does not. -/
def p6End (order : List Seen) : State :=
  { State.reset with
    mem  := [(0x1000, 0xF0), (0x1001, 0x0F), (0x1002, 0xF0), (0x1003, 0x0F), (0x1004, 0x64), (0x1005, 0x96), (0x1006, 0xC8),
             (0x1007, 0xFA), (0x2000, 0xF0), (0x2001, 0xF0), (0x2002, 0xCF), (0x2003, 0x69), (0x2010, 0x4F), (0x2011, 0x0F),
             (0x2012, 0x8E), (0x2013, 0xFA)]
    seen := order }

theorem p6_run_one :
    run 5 { p6 with schedule := [.channel .ch4, .channel .ch4, .channel .ch3, .channel .ch4, .channel .ch3] } =
      .next (p6End [.done .ch3, .done .ch4]) := of_stateOf (by decide)

theorem p6_run_two :
    run 5 { p6 with schedule := [.channel .ch3, .channel .ch3, .channel .ch4, .channel .ch4, .channel .ch4] } =
      .next (p6End [.done .ch4, .done .ch3]) := of_stateOf (by decide)

theorem p6End_idle (l : List Seen) : (p6End l).allIdle := fun k => by cases k <;> rfl

theorem witness_DrainedPassesHaveConvertedEveryPixel :
    ∃ (s t : State) (m : Nat), s.Inv ∧ s.host = [] ∧ run m s = .next t ∧ t.allIdle ∧
      s.ch.get .ch4 = some ⟨0x1000, 0x2010, 2, 0⟩ :=
  ⟨_, _, 5, p6_turn_inv _, rfl, p6_run_one, p6End_idle _, rfl⟩

theorem witness_StepsOfDifferentChannelsCommute :
    ∃ s a b c d : State, s.Inv ∧ channelStep .ch3 s = .next a ∧ channelStep .ch4 a = .next b ∧
      channelStep .ch4 s = .next c ∧ channelStep .ch3 c = .next d ∧ a ≠ s ∧ b ≠ a ∧ c ≠ s :=
  ⟨p6, (stateOf (channelStep .ch3 p6)).getD p6,
    (stateOf (channelStep .ch4 ((stateOf (channelStep .ch3 p6)).getD p6))).getD p6,
    (stateOf (channelStep .ch4 p6)).getD p6,
    (stateOf (channelStep .ch3 ((stateOf (channelStep .ch4 p6)).getD p6))).getD p6, p6_inv,
    of_stateOf (by decide), of_stateOf (by decide), of_stateOf (by decide), of_stateOf (by decide), by decide, by decide,
    by decide⟩

theorem witness_FinalMemoryIsTheSameForEverySchedule :
    p6.Inv ∧ p6.host = [] ∧
    ∃ (t u : State) (σ τ : List Agent), run 5 { p6 with schedule := σ, draws := 0 } = .next t ∧ t.allIdle ∧
      run 5 { p6 with schedule := τ, draws := 0 } = .next u ∧ u.allIdle ∧ σ ≠ τ :=
  ⟨p6_inv, rfl, _, _, _, _, p6_run_one, p6End_idle _, p6_run_two, p6End_idle _, by decide⟩

theorem witness_EveryPassCompletes : p6.Inv ∧ p6.host = [] ∧ p6.schedule = [] ∧ p6.work = 5 :=
  ⟨p6_inv, rfl, rfl, by decide⟩

/-- Channel 4 of `p6` has three steps left and gets three turns among others. -/
theorem witness_EnoughTurnsFinishAPass :
    p6.Inv ∧ p6.host = [] ∧ p6.workOf .ch4 = 3 ∧
    [Agent.channel .ch4, .host, .channel .ch4, .channel .ch1, .channel .ch3, .channel .ch4].count (.channel .ch4) = 3 :=
  ⟨p6_inv, rfl, by decide, by decide⟩

theorem witness_PassTakesExactlyItsSteps : p6.Inv ∧ p6.ch.get .ch4 = some ⟨0x1000, 0x2010, 2, 0⟩ ∧ 2 ≤ 2 - 0 :=
  ⟨p6_inv, rfl, by decide⟩

/-- A pass of one pixel on channel 5, and the same pixel elsewhere. -/
def small1 : State := withPass .ch5 ⟨0x10, 0x200, 1, 0⟩ [(0x10, 0x34), (0x11, 0x12)]
def small2 : State := withPass .ch5 ⟨0x20, 0x210, 1, 0⟩ [(0x20, 0x34), (0x21, 0x12)]

theorem small1_inv : small1.Inv where
  memWf := by decide
  memSpace := by decide
  addrWidth := fun k p h => by cases k <;> cases h; decide
  indexBound := fun k p h => by cases k <;> cases h; decide
  regionSpace := fun k p h => by cases k <;> cases h; decide
  ownDisjoint := fun k p h => by cases k <;> cases h; decide
  pairDisjoint := fun j k p q e hj hk => by cases j <;> cases hj; cases k <;> first | exact absurd rfl e | cases hk

theorem small2_inv : small2.Inv where
  memWf := by decide
  memSpace := by decide
  addrWidth := fun k p h => by cases k <;> cases h; decide
  indexBound := fun k p h => by cases k <;> cases h; decide
  regionSpace := fun k p h => by cases k <;> cases h; decide
  ownDisjoint := fun k p h => by cases k <;> cases h; decide
  pairDisjoint := fun j k p q e hj hk => by cases j <;> cases hj; cases k <;> first | exact absurd rfl e | cases hk

theorem witness_PassOutputDependsOnSourceBytesOnly :
    small1.Inv ∧ small2.Inv ∧ small1.host = [] ∧ small2.host = [] ∧
    (∀ j, j < 1 * 2 → small1.mem.read (0x10 + j) = small2.mem.read (0x20 + j)) ∧
    (∃ t, run 2 small1 = .next t ∧ t.allIdle) ∧ (∃ t, run 3 small2 = .next t ∧ t.allIdle) := by
  refine ⟨small1_inv, small2_inv, rfl, rfl, by decide, ⟨{ State.reset with
    mem := [(0x10, 0x34), (0x11, 0x12), (0x200, 0x69), (0x201, 0x24)], seen := [.done .ch5] }, of_stateOf (by decide), ?_⟩,
    ⟨{ State.reset with mem := [(0x20, 0x34), (0x21, 0x12), (0x210, 0x69), (0x211, 0x24)], seen := [.done .ch5] },
      of_stateOf (by decide), ?_⟩⟩ <;> exact fun k => by cases k <;> rfl

/-- The programs P4, P1, P6, P3 and the second half of P2: the hypotheses of the five whole-pass statements, and of the statement
that a command repeated writes the same bytes. -/
theorem witness_PassOf :
    State.reset.mem.wf = true ∧ (∀ k, State.reset.ch.get k = none) ∧ Contract .reset .ch1 ⟨0x1000, 0x2000, 1, 3⟩ ∧
    Contract .reset .ch2 ⟨0x1000, 0x2000, 2, 2⟩ ∧ Contract .reset .ch3 ⟨0x1000, 0x2000, 2, 1⟩ ∧
    Contract .reset .ch4 ⟨0x1001, 0x2003, 3, 1⟩ ∧ Contract .reset .ch5 ⟨0x2000, 0x3000, 4, 1⟩ := by
  refine ⟨rfl, reset_idle, ?_, ?_, ?_, ?_, ?_⟩ <;> exact contract_idle reset_idle rfl (by decide) (by decide) (by decide)

end Sys2Proof.Tests
end

section
/-! The memory primitives (00_scope.md R13) and the pixel count (00_scope.md R9). -/

namespace Sys2Proof.Machine

/-- Settles O14, from the byte lemmas of multi-byte reads and writes. -/
theorem memoryPrimitivesAreLittleEndian : Obligations.MemoryPrimitivesAreLittleEndian := by
  intro m a n hm
  refine ⟨fun j hj => memRead_byte m a n j hj, fun v => ⟨?bytes, ?frame, ?canonical, ?readBack⟩⟩
  case bytes => exact fun j hj => memWrite_read_byte hm a n v hj
  case frame => exact fun c hc => memWrite_read_other hm a n v hc
  case canonical => exact memWrite_wf hm a n v
  case readBack => exact memRead_memWrite hm a n v

/-- The pixel count fits in 64 bits (R9). -/
theorem pixelCount_lt (o : Operands) : pixelCount o < 2 ^ 64 :=
  (pixelCount_le o).trans_lt (by decide)

/-- The issue looks at WIDTH and HEIGHT only through the regions and the new record, and these only through N (R9). -/
theorem issue_eq_of_pixelCount_eq {o o' : Operands} (hsrc : o.src = o'.src) (hdst : o.dst = o'.dst)
    (hn : pixelCount o = pixelCount o') (k : Chan) (s : State) : issue k o s = issue k o' s := by
  have hS : srcRegionOf k o = srcRegionOf k o' := by simp only [srcRegionOf, hsrc, hn]
  have hD : dstRegionOf k o = dstRegionOf k o' := by simp only [dstRegionOf, hdst, hn]
  have hcheck : issueRefusal s k o = issueRefusal s k o' := by simp only [issueRefusal, hS, hD]
  have hpass : newPass o = newPass o' := by simp only [newPass, hsrc, hdst, hn]
  simp only [issue, hcheck, hpass]

/-- Two commands of one operation with the same addresses and the same N have the same effect (R9). -/
theorem exec_eq_of_pixelCount_eq {i i' : Instr} (hop : instrChan i = instrChan i')
    (hsrc : i.operands.src = i'.operands.src) (hdst : i.operands.dst = i'.operands.dst)
    (hn : pixelCount i.operands = pixelCount i'.operands) (s : State) : exec i s = exec i' s := by
  rw [exec_eq_issue, exec_eq_issue, hop]
  exact issue_eq_of_pixelCount_eq hsrc hdst hn _ s

/-- Settles O19: every command is the issue on its channel, which looks at WIDTH and HEIGHT only through N. -/
theorem onlyThePixelCountMatters : Obligations.OnlyThePixelCountMatters := by
  intro src dst w h w' h' s
  refine ⟨rfl, pixelCount_lt ⟨src, dst, w, h⟩, fun hn => ⟨?op1, ?op2, ?op3, ?op4, ?op5⟩⟩
  all_goals
    refine exec_eq_of_pixelCount_eq ?_ ?_ ?_ ?_ s
    exacts [rfl, rfl, rfl, hn]

end Sys2Proof.Machine
end

section
/-! The invariant of 10_state.md R34: what a step may do to the passes in flight and to memory without leaving it, that every step
of every agent keeps it, and so that every state reachable from reset meets it. -/

namespace Sys2Proof.Machine

/-! ## What keeps the invariant -/

/-- Every pass in flight in `t` was in flight on the same channel in `s`, its index apart, and that index is in range. -/
def KeepsPasses (s t : State) : Prop :=
  ∀ k p, t.ch.get k = some p → ∃ q i, s.ch.get k = some q ∧ i ≤ q.n ∧ p = { q with idx := i }

/-- A state that starts no pass and keeps memory canonical and inside the address space keeps the invariant: the clauses of R34
but (a) do not speak of the index. -/
theorem State.Inv.of_keepsPasses {s t : State} (h : s.Inv) (hcfg : t.cfg = s.cfg) (hwf : t.mem.wf = true)
    (hspace : ∀ c ∈ t.mem, c.1 < s.cfg.space) (hpass : KeepsPasses s t) : t.Inv where
  memWf := hwf
  memSpace := by rwa [hcfg]
  addrWidth k p hp := by
    obtain ⟨q, i, hq, -, rfl⟩ := hpass k p hp
    rw [hcfg]
    exact h.addrWidth k q hq
  indexBound k p hp := by
    obtain ⟨q, i, hq, hi, rfl⟩ := hpass k p hp
    exact ⟨hi, (h.indexBound k q hq).2⟩
  regionSpace k p hp := by
    obtain ⟨q, i, hq, -, rfl⟩ := hpass k p hp
    rw [hcfg]
    exact h.regionSpace k q hq
  ownDisjoint k p hp := by
    obtain ⟨q, i, hq, -, rfl⟩ := hpass k p hp
    exact h.ownDisjoint k q hq
  pairDisjoint j k p p' hjk hp hp' := by
    obtain ⟨q, i, hq, -, rfl⟩ := hpass j p hp
    obtain ⟨q', i', hq', -, rfl⟩ := hpass k p' hp'
    exact h.pairDisjoint j k q q' hjk hq hq'

/-- Channels that fall idle or stay as they are keep their passes. -/
theorem State.Inv.keepsPasses {s t : State} (h : s.Inv)
    (hch : ∀ k, t.ch.get k = none ∨ t.ch.get k = s.ch.get k) : KeepsPasses s t := by
  intro k p hp
  rcases hch k with hk | hk
  · rw [hk] at hp
    cases hp
  · rw [hk] at hp
    exact ⟨p, p.idx, hp, (h.indexBound k p hp).1, rfl⟩

/-- The invariant speaks of the configuration, the channels and memory only. -/
theorem State.Inv.of_eq {s t : State} (h : s.Inv) (hcfg : t.cfg = s.cfg) (hch : t.ch = s.ch) (hmem : t.mem = s.mem) :
    t.Inv :=
  h.of_keepsPasses hcfg (hmem ▸ h.memWf) (hmem ▸ h.memSpace) (h.keepsPasses fun _ => .inr (by rw [hch]))

/-- With every channel idle, what is left of the invariant is memory. -/
theorem State.Inv.of_allIdle {s : State} (hidle : s.allIdle) (hwf : s.mem.wf = true)
    (hspace : ∀ c ∈ s.mem, c.1 < s.cfg.space) : s.Inv where
  memWf := hwf
  memSpace := hspace
  addrWidth k p hp := absurd (hidle k) (by simp [hp])
  indexBound k p hp := absurd (hidle k) (by simp [hp])
  regionSpace k p hp := absurd (hidle k) (by simp [hp])
  ownDisjoint k p hp := absurd (hidle k) (by simp [hp])
  pairDisjoint j _ p _ _ hp _ := absurd (hidle j) (by simp [hp])

/-! ## Each operation keeps the invariant -/

/-- What holds of the pass started on a channel and of every pass in flight before holds of every pass in flight after. -/
theorem State.forall_setCh_some {s : State} {k : Chan} {v : Pass} {P : Chan → Pass → Prop} (hnew : P k v)
    (hold : ∀ j p, s.ch.get j = some p → P j p) : ∀ j p, (s.setCh k (some v)).ch.get j = some p → P j p := by
  intro j p hp
  rw [State.setCh_ch, Channels.get_set] at hp
  split_ifs at hp with hjk
  · cases hp
    exact hjk ▸ hnew
  · exact hold j p hp

/-- An accepted command keeps the invariant: check 1 of R102 gives R34 (b) its bounds, check 3 that the two regions are apart,
check 4 gives R34 (c). -/
theorem State.Inv.issue {s : State} (h : s.Inv) {k : Chan} {o : Operands} (hc : issueRefusal s k o = none)
    (hw : o.wf s.cfg = true) : (s.setCh k (some (newPass o))).Inv := by
  obtain ⟨hfits, -, hown, hothers⟩ := (issueRefusal_eq_none s k o).1 hc
  rw [conflict_eq_false] at hothers
  exact {
    memWf := h.memWf
    memSpace := h.memSpace
    addrWidth := State.forall_setCh_some (by simpa [Operands.wf] using hw) h.addrWidth
    indexBound := State.forall_setCh_some ⟨Nat.zero_le _, pixelCount_le o⟩ h.indexBound
    regionSpace := State.forall_setCh_some ((noWrap_iff _ _ _).1 hfits) h.regionSpace
    ownDisjoint := State.forall_setCh_some hown h.ownDisjoint
    pairDisjoint := by
      intro i j p q hij hp hq
      rw [State.setCh_ch, Channels.get_set] at hp hq
      split_ifs at hp hq with hi hj hj
      case pos => exact absurd (hi.trans hj.symm) hij
      case neg =>
        cases hp
        subst hi
        obtain ⟨hDS, hDD, -⟩ := hothers j q hj hq
        exact ⟨hDS, hDD⟩
      case pos =>
        cases hq
        subst hj
        obtain ⟨-, hDD, hSD⟩ := hothers i p hi hp
        exact ⟨by rwa [Region.overlaps_symm], by rwa [Region.overlaps_symm]⟩
      case neg => exact h.pairDisjoint i j p q hij hp hq }

/-- A pixel step lists no address but those listed before and those of its destination pixel. -/
theorem mem_convertPixel {c : Config} {k : Chan} {p : Pass} {m : Memory} {x : Host.Cell} (h : x ∈ convertPixel c k p m) :
    x ∈ m ∨ (p.dstAddr k ≤ x.1 ∧ x.1 < p.dstAddr k + k.dstBytes) :=
  mem_memWrite h

theorem State.Inv.pixelStep {s : State} (h : s.Inv) {k : Chan} {p : Pass} (hp : s.ch.get k = some p) (hi : p.idx < p.n)
    (hd : p.dstAddr k + k.dstBytes ≤ s.cfg.space) :
    State.Inv { s.setCh k (some p.advance) with mem := convertPixel s.cfg k p s.mem } := by
  refine h.of_keepsPasses rfl (convertPixel_wf h.memWf _ _ _) ?space ?passes
  case space =>
    intro x hx
    rcases mem_convertPixel hx with hx | ⟨-, hx⟩
    · exact h.memSpace x hx
    · omega
  case passes =>
    exact State.forall_setCh_some ⟨p, p.idx + 1, hp, hi, rfl⟩ (h.keepsPasses fun _ => .inr rfl)

theorem State.Inv.retire {s : State} (h : s.Inv) (k : Chan) : (retire k s).Inv :=
  h.of_keepsPasses rfl h.memWf h.memSpace <| h.keepsPasses fun j => by
    rw [retire_ch, Channels.get_set]
    exact ite_eq_or_eq _ _ _

theorem State.Inv.resetChannel {s : State} (h : s.Inv) (k : Chan) : (resetChannel s k).Inv := by
  refine h.of_keepsPasses (resetChannel_cfg s k) (resetChannel_wf h.memWf k) ?space ?passes
  case space =>
    intro x hx
    rcases mem_resetChannel hx with hx | ⟨p, hp, hx⟩
    · exact h.memSpace x hx
    · exact ((Pass.dstRegion_has p k x.1).1 hx).2.trans_le (h.regionSpace k p hp).2
  case passes =>
    refine h.keepsPasses fun j => ?_
    rw [resetChannel_get]
    exact ite_eq_or_eq _ _ _

theorem State.Inv.resetBlock {s : State} (h : s.Inv) : (resetBlock s).Inv := by
  rw [resetBlock_eq]
  exact ((((h.resetChannel _).resetChannel _).resetChannel _).resetChannel _).resetChannel _

theorem State.Inv.write {s : State} (h : s.Inv) {a : Nat} (ha : a < s.cfg.space) (b : U8) :
    State.Inv { s with mem := s.mem.write a b } := by
  refine h.of_keepsPasses rfl (Memory.write_wf h.memWf a b) ?space (h.keepsPasses fun _ => .inr rfl)
  intro x hx
  rcases Memory.mem_write hx with hx | rfl
  · exact h.memSpace x hx
  · exact ha

/-! ## Each agent's turn keeps the invariant -/

theorem channelStep_inv {k : Chan} {s t : State} (h : s.Inv) (hs : channelStep k s = .next t) : t.Inv := by
  rcases channelStep_cases hs with ⟨rfl, -⟩ | ⟨p, hp, hi, -, hd, rfl⟩ | ⟨p, -, -, rfl⟩
  · exact h
  · exact h.pixelStep hp hi hd
  · exact h.retire k

theorem channelStep_cfg {k : Chan} {s t : State} (hs : channelStep k s = .next t) : t.cfg = s.cfg := by
  rcases channelStep_cases hs with ⟨rfl, -⟩ | ⟨p, -, -, -, -, rfl⟩ | ⟨p, -, -, rfl⟩ <;> rfl

theorem hostStep_inv {s t : State} (h : s.Inv) (hs : hostStep s = .next t) : t.Inv := by
  have moved : ∀ rest, State.Inv { s with host := rest } := fun rest => h.of_eq rfl rfl rfl
  rcases hostStep_cases hs with ⟨rfl, -⟩ | ⟨bits, l, rest, i, -, hd, -, hc, rfl⟩ | ⟨k, rest, -, -, rfl⟩ |
    ⟨rest, -, rfl⟩ | ⟨a, rest, -, -, -, rfl⟩ | ⟨a, b, rest, -, ha, -, -, rfl⟩ | ⟨rest, -, rfl⟩
  · exact h
  · have presented : (s.present l rest).Inv := h.of_eq rfl rfl rfl
    exact presented.issue hc (wf_of_decodeBits hd)
  · exact moved rest
  · exact h.of_eq rfl rfl rfl
  · exact h.of_eq rfl rfl rfl
  · exact (moved rest).write ha b
  · exact (moved rest).resetBlock

theorem hostStep_cfg {s t : State} (hs : hostStep s = .next t) : t.cfg = s.cfg := by
  rcases hostStep_cases hs with ⟨rfl, -⟩ | ⟨bits, l, rest, i, -, -, -, -, rfl⟩ | ⟨k, rest, -, -, rfl⟩ |
    ⟨rest, -, rfl⟩ | ⟨a, rest, -, -, -, rfl⟩ | ⟨a, b, rest, -, -, -, -, rfl⟩ | ⟨rest, -, rfl⟩ <;> simp

theorem act_inv {a : Agent} {s t : State} (h : s.Inv) (hs : act a s = .next t) : t.Inv := by
  cases a with
  | host => exact hostStep_inv h hs
  | channel k => exact channelStep_inv h hs

theorem act_cfg {a : Agent} {s t : State} (hs : act a s = .next t) : t.cfg = s.cfg := by
  cases a with
  | host => exact hostStep_cfg hs
  | channel k => exact channelStep_cfg hs

theorem step_inv {s t : State} (h : s.Inv) (hs : step s = .next t) : t.Inv := by
  rcases step_cases hs with ⟨rfl, -, -⟩ | ⟨a, σ, d, ha, -⟩
  · exact h
  · have turnTaken : State.Inv { s with schedule := σ, draws := d } := h.of_eq rfl rfl rfl
    exact act_inv turnTaken ha

theorem step_cfg {s t : State} (hs : step s = .next t) : t.cfg = s.cfg := by
  rcases step_cases hs with ⟨rfl, -, -⟩ | ⟨a, σ, d, ha, -⟩
  · rfl
  · exact (act_cfg ha :)

/-- Settles O38: a step is a turn of one agent in a state that differs only in the schedule and the draws, and each agent's turn
keeps the invariant. -/
theorem everyStepKeepsTheInvariant : Obligations.EveryStepKeepsTheInvariant :=
  fun _ _ h hs => ⟨step_inv h hs, step_cfg hs⟩

/-! ## From reset -/

theorem reset_allIdle : State.reset.allIdle := fun k => by cases k <;> rfl

/-- Settles O37: with every channel idle and nothing listed in memory, no clause of the invariant is left to hold. -/
theorem resetStateIsIdleAndInvariant : Obligations.ResetStateIsIdleAndInvariant := by
  refine ⟨.of_allIdle reset_allIdle rfl (fun _ hc => nomatch hc), reset_allIdle, fun k => ?_⟩
  rw [State.status_bit, State.busy_eq_false]
  exact reset_allIdle k

/-- A run keeps the invariant and the configuration. -/
theorem run_inv {m : Nat} {s t : State} (h : s.Inv) (hr : run m s = .next t) : t.Inv ∧ t.cfg = s.cfg := by
  refine run_keeps (P := fun u => u.Inv ∧ u.cfg = s.cfg) ?_ ⟨h, rfl⟩ hr
  rintro u v ⟨hu, hcfg⟩ hs
  exact ⟨step_inv hu hs, (step_cfg hs).trans hcfg⟩

theorem apart_iff_overlaps_eq_false (r q : Region) : Apart r q ↔ r.overlaps q = false := by
  simp [Region.not_overlaps_iff, Apart]

/-- Settles O39: the run starts idle in canonical memory, so it ends in the invariant, whose clauses are R34's said of overlaps. -/
theorem reachableStatesMeetR34 : Obligations.ReachableStatesMeetR34 := by
  intro c mem host schedule m t hwf hspace hr
  have start : State.Inv { State.reset with cfg := c, mem := mem, host := host, schedule := schedule } :=
    .of_allIdle reset_allIdle hwf hspace
  obtain ⟨h, hcfg⟩ : t.Inv ∧ t.cfg = c := run_inv start hr
  refine ⟨fun k p hp => (h.indexBound k p hp).1, fun k p hp => ⟨?own, ?below⟩, fun j k p q hjk hp hq => ?pair⟩
  case own => exact (apart_iff_overlaps_eq_false _ _).2 (h.ownDisjoint k p hp)
  case below => exact hcfg ▸ h.regionSpace k p hp
  case pair =>
    obtain ⟨hsrc, hdst⟩ := h.pairDisjoint j k p q hjk hp hq
    exact ⟨(apart_iff_overlaps_eq_false _ _).2 hsrc, (apart_iff_overlaps_eq_false _ _).2 hdst⟩

end Sys2Proof.Machine
end

section
/-! The channel records along a step (10_state.md R24, R25), and the turns that always answer or are always refused (R26, R40). -/

namespace Sys2Proof.Machine

/-! ## The record of one channel -/

/-- What R24 and R25 let a step from `s` to `t` do to `ch[k]`: a pass in flight stays, advances, retires or is reset; an idle
channel stays idle or takes a new pass. -/
def RecordAdvances (k : Chan) (s t : State) : Prop :=
  (∀ p, s.ch.get k = some p →
    t.ch.get k = some p ∨ (p.idx < p.n ∧ t.ch.get k = some p.advance) ∨
    (t.ch.get k = none ∧ p.idx = p.n ∧ t.seen = .done k :: s.seen) ∨
    (t.ch.get k = none ∧ t.seen = s.seen ∧ ∃ rest, s.host = .reset :: rest ∧ t.host = rest)) ∧
  (s.ch.get k = none → t.ch.get k = none ∨
    ∃ p, t.ch.get k = some p ∧ p.idx = 0 ∧ ∃ bits lent rest, s.host = .issue bits lent :: rest ∧ t.host = rest)

theorem RecordAdvances.of_get_eq {k : Chan} {s t : State} (h : t.ch.get k = s.ch.get k) : RecordAdvances k s t :=
  ⟨fun _ hp => .inl (h.trans hp), fun hn => .inl (h.trans hn)⟩

/-- Where one record is written, only what became of that record is left to say. -/
theorem RecordAdvances.of_set {j : Chan} {v : Option Pass} {s t : State} (hch : t.ch = s.ch.set j v)
    (hj : RecordAdvances j s t) (k : Chan) : RecordAdvances k s t := by
  by_cases hkj : k = j
  · exact hkj ▸ hj
  · exact .of_get_eq (by rw [hch, Channels.get_set_other _ _ hkj])

theorem channelStep_recordAdvances {j : Chan} {s t : State} (hs : channelStep j s = .next t) (k : Chan) :
    RecordAdvances k s t := by
  rcases channelStep_cases hs with ⟨rfl, -⟩ | ⟨p, hp, hi, -, -, rfl⟩ | ⟨p, hp, hi, rfl⟩
  · exact .of_get_eq rfl
  · refine .of_set rfl ⟨fun q hq => .inr (.inl ?_), fun hn => absurd hn (by simp [hp])⟩ k
    cases hp.symm.trans hq
    exact ⟨hi, Channels.get_set_same _ _ _⟩
  · refine .of_set rfl ⟨fun q hq => .inr (.inr (.inl ?_)), fun hn => absurd hn (by simp [hp])⟩ k
    cases hp.symm.trans hq
    exact ⟨Channels.get_set_same _ _ _, hi, rfl⟩

theorem hostStep_recordAdvances {s t : State} (hs : hostStep s = .next t) (k : Chan) : RecordAdvances k s t := by
  rcases hostStep_cases hs with ⟨rfl, -⟩ | ⟨bits, l, rest, i, hh, -, hidle, -, rfl⟩ | ⟨j, rest, -, -, rfl⟩ |
    ⟨rest, -, rfl⟩ | ⟨a, rest, -, -, -, rfl⟩ | ⟨a, b, rest, -, -, -, -, rfl⟩ | ⟨rest, hh, rfl⟩
  · exact .of_get_eq rfl
  · refine .of_set rfl ⟨fun p hp => absurd hidle (by simp [hp]), fun _ => .inr ?_⟩ k
    exact ⟨newPass i.operands, Channels.get_set_same _ _ _, rfl, bits, l, rest, hh, rfl⟩
  · exact .of_get_eq rfl
  · exact .of_get_eq rfl
  · exact .of_get_eq rfl
  · exact .of_get_eq rfl
  · exact ⟨fun _ _ => .inr (.inr (.inr ⟨resetBlock_get _ k, resetBlock_seen _, rest, hh, resetBlock_host _⟩)),
      fun _ => .inl (resetBlock_get _ k)⟩

theorem act_recordAdvances {a : Agent} {s t : State} (hs : act a s = .next t) (k : Chan) : RecordAdvances k s t := by
  cases a with
  | host => exact hostStep_recordAdvances hs k
  | channel j => exact channelStep_recordAdvances hs k

/-- Settles O26: taking the turn off the schedule touches no record, and each agent's turn only advances them. -/
theorem channelRecordOnlyAdvances : Obligations.ChannelRecordOnlyAdvances := by
  intro s t k hs
  rcases step_cases hs with ⟨rfl, -, -⟩ | ⟨a, σ, d, ha, -⟩
  · exact RecordAdvances.of_get_eq rfl
  · exact act_recordAdvances ha k

/-! ## Turns that always answer, and accesses that never do -/

/-- Under the invariant the pixel at the index of a pass lies below 2^ADDR_W, so no pixel step is refused (R26, R47). -/
theorem channelStep_answers {s : State} (h : s.Inv) (k : Chan) : ∃ t, channelStep k s = .next t := by
  cases hp : s.ch.get k with
  | none => exact ⟨s, by simp [channelStep, hp]⟩
  | some p =>
    obtain ⟨hsrc, hdst⟩ := h.regionSpace k p hp
    rcases (h.indexBound k p hp).1.lt_or_eq with hi | hi
    · exact ⟨_, (channelStep_pixel hp hi).trans
        (pixelStep_next ((pixel_inside hi).trans hsrc) ((pixel_inside hi).trans hdst))⟩
    · exact ⟨_, channelStep_retire hp hi⟩

theorem hostStep_read {s : State} {a : Nat} {rest : List HostMove} (h : s.host = .read a :: rest) :
    hostStep s = hostRead a { s with host := rest } := by
  simp [hostStep, h]

theorem hostStep_write {s : State} {a : Nat} {b : U8} {rest : List HostMove} (h : s.host = .write a b :: rest) :
    hostStep s = hostWrite a b { s with host := rest } := by
  simp [hostStep, h]

theorem hostStep_status {s : State} {rest : List HostMove} (h : s.host = .status :: rest) :
    hostStep s = .next { s with host := rest, seen := .status s.status :: s.seen } := by
  simp [hostStep, h, State.tell]

/-- Settles O40: a channel's turn answers by the bounds of R34; a fault has no reason; the host's access is checked against the
address space first. -/
theorem channelsNeverFault : Obligations.ChannelsNeverFault := by
  intro s h
  refine ⟨channelStep_answers h, (fun r => nomatch r), fun a rest ha => ⟨fun hh => ?read, fun b hh => ?write⟩⟩
  case read => rw [hostStep_read hh, hostRead, if_pos ha]
  case write => rw [hostStep_write hh, hostWrite, if_pos ha]

/-- Settles O29: the value recorded is the STATUS view, whose bit `k` is the busy bit of channel `k`. -/
theorem statusReadGivesTheBusyBits : Obligations.StatusReadGivesTheBusyBits := by
  intro s rest hh
  refine ⟨s.status, hostStep_status hh, fun k => ?_⟩
  rw [State.status_bit, State.busy_eq_true]

end Sys2Proof.Machine
end

section
/-! Which bytes a step may touch, and what becomes of a pass (20_memory.md R41, R47, R54, R58): a channel writes inside its own
destination region alone, a pass stays under way until it is done or reset, and passes left alone convert all that remains. -/

namespace Sys2Proof.Machine

/-! ## The bytes a channel writes -/

/-- Pixel `i` of a pass lies in its destination region (R47). -/
theorem Pass.dstRegion_has_pixel {p : Pass} {k : Chan} {i a : Nat} (hi : i < p.n) (hlo : p.dst + i * k.dstBytes ≤ a)
    (hhi : a < p.dst + i * k.dstBytes + k.dstBytes) : (p.dstRegion k).has a = true :=
  (Pass.dstRegion_has p k a).2 ⟨(Nat.le_add_right _ _).trans hlo, hhi.trans_le (pixel_inside hi)⟩

/-- Pixel `i` of a pass is read from its source region (R47). -/
theorem Pass.srcRegion_has_pixel {p : Pass} {k : Chan} {i a : Nat} (hi : i < p.n) (hlo : p.src + i * k.srcBytes ≤ a)
    (hhi : a < p.src + i * k.srcBytes + k.srcBytes) : (p.srcRegion k).has a = true :=
  (Pass.srcRegion_has p k a).2 ⟨(Nat.le_add_right _ _).trans hlo, hhi.trans_le (pixel_inside hi)⟩

/-- The address belongs to a destination pixel that the pass has not written yet. -/
def Pass.Pending (p : Pass) (k : Chan) (a : Nat) : Prop :=
  p.dst + p.idx * k.dstBytes ≤ a ∧ a < p.dst + p.n * k.dstBytes

theorem Pass.Pending.idx_lt {p : Pass} {k : Chan} {a : Nat} (h : p.Pending k a) : p.idx < p.n := by
  obtain ⟨hlo, hhi⟩ := h
  exact Nat.lt_of_mul_lt_mul_right (Nat.lt_of_add_lt_add_left (hlo.trans_lt hhi))

theorem Pass.Pending.dstRegion_has {p : Pass} {k : Chan} {a : Nat} (h : p.Pending k a) : (p.dstRegion k).has a = true :=
  (Pass.dstRegion_has p k a).2 ⟨(Nat.le_add_right _ _).trans h.1, h.2⟩

/-- After a pixel step the pixel at the old index is pending no more, and the others as before. -/
theorem Pass.pending_advance {p : Pass} {k : Chan} {a : Nat} :
    p.advance.Pending k a ↔ p.Pending k a ∧ p.dstAddr k + k.dstBytes ≤ a := by
  simp only [Pass.Pending, Pass.dstAddr, Pass.advance_dst, Pass.advance_idx, Pass.advance_n, Nat.add_mul]
  omega

/-- A pixel step writes pending bytes of its own pass alone (R104). -/
theorem convertPixel_read_of_not_pending {m : Memory} (h : m.wf = true) (c : Config) {k : Chan} {p : Pass}
    (hi : p.idx < p.n) {a : Nat} (ha : ¬ p.Pending k a) : (convertPixel c k p m).read a = m.read a := by
  refine convertPixel_read_other h c k p ?_
  by_contra hin
  rw [not_or, Nat.not_lt, Nat.not_le] at hin
  exact ha ⟨hin.1, hin.2.trans_le (pixel_inside hi)⟩

theorem convertPixel_read_outside {m : Memory} (h : m.wf = true) (c : Config) {k : Chan} {p : Pass} (hi : p.idx < p.n)
    {a : Nat} (ha : (p.dstRegion k).has a = false) : (convertPixel c k p m).read a = m.read a :=
  convertPixel_read_of_not_pending h c hi fun hpend => Bool.false_ne_true (ha.symm.trans hpend.dstRegion_has)

theorem channelStep_read_outside {k : Chan} {s t : State} (h : s.mem.wf = true) (hs : channelStep k s = .next t) {a : Nat}
    (ha : ∀ p, s.ch.get k = some p → (p.dstRegion k).has a = false) : t.mem.read a = s.mem.read a := by
  rcases channelStep_cases hs with ⟨rfl, -⟩ | ⟨p, hp, hi, -, -, rfl⟩ | ⟨p, -, -, rfl⟩
  · rfl
  · exact convertPixel_read_outside h s.cfg hi (ha p hp)
  · rfl

/-- What one pass in flight reads no pass in flight writes, itself included (R34 (b) and (c)). -/
theorem State.Inv.dst_has_eq_false_of_src {s : State} (h : s.Inv) {j k : Chan} {p q : Pass} (hp : s.ch.get k = some p)
    (hq : s.ch.get j = some q) {a : Nat} (ha : (p.srcRegion k).has a = true) : (q.dstRegion j).has a = false := by
  have apart : (p.srcRegion k).overlaps (q.dstRegion j) = false := by
    by_cases hjk : j = k
    · subst hjk
      cases hp.symm.trans hq
      exact h.ownDisjoint j p hp
    · rw [Region.overlaps_symm]
      exact (h.pairDisjoint j k q p hjk hq hp).1
  exact (Region.not_overlaps_iff _ _).1 apart a ha

/-- What one pass in flight writes no pass on another channel writes (R34 (c)). -/
theorem State.Inv.dst_has_eq_false_of_dst {s : State} (h : s.Inv) {j k : Chan} {p q : Pass} (hkj : k ≠ j)
    (hp : s.ch.get k = some p) (hq : s.ch.get j = some q) {a : Nat} (ha : (p.dstRegion k).has a = true) :
    (q.dstRegion j).has a = false :=
  (Region.not_overlaps_iff _ _).1 (h.pairDisjoint k j p q hkj hp hq).2 a ha

/-- Settles O25: a channel writes inside its own destination region alone, which holds no address of a source region in flight. -/
theorem blockWritesOnlyDestinationRegions : Obligations.BlockWritesOnlyDestinationRegions := by
  intro s t k h hs
  have kept : ∀ a, (∀ q, s.ch.get k = some q → (q.dstRegion k).has a = false) → t.mem.read a = s.mem.read a :=
    fun a ha => channelStep_read_outside h.memWf hs ha
  refine ⟨fun a ha => ?outsideAll, fun a j q hq ha => ?source, kept⟩
  case outsideAll => exact kept a fun q hq => ha k q hq
  case source => exact kept a fun p hp => h.dst_has_eq_false_of_src hq hp ha

/-! ## A pass under way -/

/-- Whether a pixel is converted depends on its source bytes in the one memory and its destination bytes in the other (R58). -/
theorem pixelConverted_congr {c : Config} {k : Chan} {src dst i : Nat} {m0 m0' m m' : Memory}
    (hsrc : ∀ a, src + i * k.srcBytes ≤ a → a < src + i * k.srcBytes + k.srcBytes → m0'.read a = m0.read a)
    (hdst : ∀ a, dst + i * k.dstBytes ≤ a → a < dst + i * k.dstBytes + k.dstBytes → m'.read a = m.read a) :
    pixelConverted c k src dst i m0' m' ↔ pixelConverted c k src dst i m0 m := by
  have hread0 : memRead m0' (src + i * k.srcBytes) k.srcBytes = memRead m0 (src + i * k.srcBytes) k.srcBytes :=
    memRead_congr fun j hj => hsrc _ (Nat.le_add_right _ _) (Nat.add_lt_add_left hj _)
  have hread : memRead m' (dst + i * k.dstBytes) k.dstBytes = memRead m (dst + i * k.dstBytes) k.dstBytes :=
    memRead_congr fun j hj => hdst _ (Nat.le_add_right _ _) (Nat.add_lt_add_left hj _)
  rw [pixelConverted, pixelConverted, hread0, hread]

/-- A pixel step converts the pixel at the index (R104). -/
theorem pixelConverted_convertPixel {m : Memory} (h : m.wf = true) (c : Config) (k : Chan) (p : Pass) :
    pixelConverted c k p.src p.dst p.idx m (convertPixel c k p m) :=
  memRead_convertPixel h c k p

/-- `t` holds every byte of both regions of the pass in flight on channel `k` as `s` does. -/
def KeepsRegions (k : Chan) (s t : State) : Prop :=
  ∀ p, s.ch.get k = some p → ∀ a, (p.srcRegion k).has a = true ∨ (p.dstRegion k).has a = true →
    t.mem.read a = s.mem.read a

theorem KeepsRegions.of_mem_eq {k : Chan} {s t : State} (h : t.mem = s.mem) : KeepsRegions k s t :=
  fun _ _ _ _ => by rw [h]

theorem channelStep_keepsRegions {j k : Chan} {s t : State} (h : s.Inv) (hkj : k ≠ j) (hs : channelStep j s = .next t) :
    KeepsRegions k s t := by
  intro p hp a ha
  refine channelStep_read_outside h.memWf hs fun q hq => ?_
  rcases ha with ha | ha
  · exact h.dst_has_eq_false_of_src hp hq ha
  · exact h.dst_has_eq_false_of_dst hkj hp hq ha

/-- A write the lease rules let the host make is outside both regions of every pass in flight (R226, R228). -/
theorem hostWrite_keepsRegions {s : State} (h : s.mem.wf = true) {b : Nat} (hsrc : s.leasedSrc b = false)
    (hdst : s.leasedDst b = false) (v : U8) (rest : List HostMove) (k : Chan) :
    KeepsRegions k s { s with host := rest, mem := s.mem.write b v } := by
  intro p hp a ha
  have hne : a ≠ b := by
    rintro rfl
    rcases ha with ha | ha
    · exact Bool.false_ne_true (((leasedSrc_eq_false s a).1 hsrc k p hp).symm.trans ha)
    · exact Bool.false_ne_true (((leasedDst_eq_false s a).1 hdst k p hp).symm.trans ha)
  exact (Memory.read_write h b v a).trans (if_neg hne)

section
variable {k : Chan} {src dst n : Nat} {m0 : Memory} {s t : State}

/-- A step that leaves the record of a pass and the bytes of its two regions alone leaves it under way. -/
theorem PassUnderway.of_keepsRegions (hu : PassUnderway k src dst n m0 s) (h : s.Inv) (hcfg : t.cfg = s.cfg)
    (hget : t.ch.get k = s.ch.get k) (hmem : KeepsRegions k s t) : PassUnderway k src dst n m0 t := by
  obtain ⟨⟨idx, hp, hconv⟩, hsource⟩ := hu
  refine ⟨⟨idx, hget.trans hp, fun i hi => ?_⟩, fun a hlo hhi => ?_⟩
  · have hin : i < n := hi.trans_le (h.indexBound k _ hp).1
    rw [hcfg]
    exact (pixelConverted_congr (fun _ _ _ => rfl)
      fun a hlo hhi => hmem _ hp a (.inr (Pass.dstRegion_has_pixel hin hlo hhi))).2 (hconv i hi)
  · have hsrc : (Pass.srcRegion ⟨src, dst, n, idx⟩ k).has a = true := (Pass.srcRegion_has _ k a).2 ⟨hlo, hhi⟩
    exact (hmem _ hp a (.inl hsrc)).trans (hsource a hlo hhi)

/-- The pixel step converts the pixel at the index from the source bytes of the issue (R54), and writes neither the pixels below
the index nor the source region. -/
theorem PassUnderway.pixelStep (hu : PassUnderway k src dst n m0 s) (h : s.Inv) {p : Pass} (hp : s.ch.get k = some p)
    (hi : p.idx < p.n) :
    PassUnderway k src dst n m0 { s.setCh k (some p.advance) with mem := convertPixel s.cfg k p s.mem } := by
  obtain ⟨⟨idx, hq, hconv⟩, hsource⟩ := hu
  cases hp.symm.trans hq
  refine ⟨⟨idx + 1, Channels.get_set_same _ _ _, fun i hlt => ?pixels⟩, fun a hlo hhi => ?source⟩
  case pixels =>
    rcases Nat.lt_succ_iff_lt_or_eq.1 hlt with hlt | rfl
    · refine (pixelConverted_congr (fun _ _ _ => rfl) fun a _ hhi => ?_).2 (hconv i hlt)
      exact convertPixel_read_other h.memWf _ _ _ (.inl (hhi.trans_le (pixel_inside hlt)))
    · refine (pixelConverted_congr (fun a hlo hhi => ?_) fun _ _ _ => rfl).1 (pixelConverted_convertPixel h.memWf s.cfg k _)
      exact hsource a ((Nat.le_add_right _ _).trans hlo) (hhi.trans_le (pixel_inside hi))
  case source =>
    have hsrc : (Pass.srcRegion ⟨src, dst, n, idx⟩ k).has a = true := (Pass.srcRegion_has _ k a).2 ⟨hlo, hhi⟩
    exact (convertPixel_read_outside h.memWf _ hi (h.dst_has_eq_false_of_src hp hp hsrc)).trans (hsource a hlo hhi)

/-- At the retire step the index is the count, so every pixel is converted (R109). -/
theorem PassUnderway.retire (hu : PassUnderway k src dst n m0 s) {p : Pass} (hp : s.ch.get k = some p)
    (hi : p.idx = p.n) : PassDone k src dst n m0 (retire k s) := by
  obtain ⟨⟨idx, hq, hconv⟩, -⟩ := hu
  cases hp.symm.trans hq
  exact ⟨Channels.get_set_same _ _ _, fun i hlt => hconv i (hlt.trans_eq hi.symm)⟩

end

/-- What R58 lets a step from `s` to `t` make of a pass under way: it stays under way, it is done, or reset cuts it short. -/
def PassProgresses (k : Chan) (src dst n : Nat) (m0 : Memory) (s t : State) : Prop :=
  PassUnderway k src dst n m0 t ∨
  (PassDone k src dst n m0 t ∧ t.seen = .done k :: s.seen) ∨
  (t.allIdle ∧ t.seen = s.seen ∧ ∃ rest, s.host = .reset :: rest ∧ t.host = rest)

section
variable {k : Chan} {src dst n : Nat} {m0 : Memory} {s t : State}

theorem channelStep_passProgresses {j : Chan} (h : s.Inv) (hu : PassUnderway k src dst n m0 s)
    (hs : channelStep j s = .next t) : PassProgresses k src dst n m0 s t := by
  by_cases hkj : k = j
  case neg =>
    have hget : t.ch.get k = s.ch.get k := by
      rcases channelStep_cases hs with ⟨rfl, -⟩ | ⟨p, -, -, -, -, rfl⟩ | ⟨p, -, -, rfl⟩
      · rfl
      · exact Channels.get_set_other _ _ hkj
      · exact Channels.get_set_other _ _ hkj
    exact .inl (hu.of_keepsRegions h (channelStep_cfg hs) hget (channelStep_keepsRegions h hkj hs))
  case pos =>
    subst hkj
    rcases channelStep_cases hs with ⟨rfl, -⟩ | ⟨p, hp, hi, -, -, rfl⟩ | ⟨p, hp, hi, rfl⟩
    · exact .inl hu
    · exact .inl (hu.pixelStep h hp hi)
    · exact .inr (.inl ⟨hu.retire hp hi, rfl⟩)

theorem hostStep_passProgresses (h : s.Inv) (hu : PassUnderway k src dst n m0 s) (hs : hostStep s = .next t) :
    PassProgresses k src dst n m0 s t := by
  rcases hostStep_cases hs with ⟨rfl, -⟩ | ⟨bits, l, rest, i, -, -, hidle, -, rfl⟩ | ⟨j, rest, -, -, rfl⟩ |
    ⟨rest, -, rfl⟩ | ⟨a, rest, -, -, -, rfl⟩ | ⟨a, b, rest, -, -, hsrc, hdst, rfl⟩ | ⟨rest, hh, rfl⟩
  · exact .inl hu
  · have hne : k ≠ instrChan i := by
      obtain ⟨⟨idx, hp, -⟩, -⟩ := hu
      rintro rfl
      exact Option.some_ne_none _ (hp.symm.trans hidle)
    exact .inl (hu.of_keepsRegions h rfl (Channels.get_set_other _ _ hne) (.of_mem_eq rfl))
  · exact .inl (hu.of_keepsRegions h rfl rfl (.of_mem_eq rfl))
  · exact .inl (hu.of_keepsRegions h rfl rfl (.of_mem_eq rfl))
  · exact .inl (hu.of_keepsRegions h rfl rfl (.of_mem_eq rfl))
  · exact .inl (hu.of_keepsRegions h rfl rfl (hostWrite_keepsRegions h.memWf hsrc hdst b rest k))
  · exact .inr (.inr ⟨resetBlock_get _, resetBlock_seen _, rest, hh, resetBlock_host _⟩)

theorem act_passProgresses {a : Agent} (h : s.Inv) (hu : PassUnderway k src dst n m0 s) (hs : act a s = .next t) :
    PassProgresses k src dst n m0 s t := by
  cases a with
  | host => exact hostStep_passProgresses h hu hs
  | channel j => exact channelStep_passProgresses h hu hs

end

/-- Settles O42: taking the turn off the schedule leaves the pass under way, and each agent's turn progresses it. -/
theorem passProgressesUntilDoneOrReset : Obligations.PassProgressesUntilDoneOrReset := by
  intro k src dst n m0 s t h hu hs
  rcases step_cases hs with ⟨rfl, -, -⟩ | ⟨a, σ, d, ha, -⟩
  · exact .inl hu
  · have turnTaken : State.Inv { s with schedule := σ, draws := d } := h.of_eq rfl rfl rfl
    exact (act_passProgresses turnTaken (hu.of_keepsRegions h rfl rfl (.of_mem_eq rfl)) ha :)

/-! ## Passes left alone -/

theorem hostStep_of_host_nil {s : State} (h : s.host = []) : hostStep s = .next s := by
  rw [hostStep, h]

/-- With no move of the host, a step changes no channel and no memory, or is the pixel or the retire step of one pass. -/
theorem step_cases_of_host_nil {s t : State} (hh : s.host = []) (hs : step s = .next t) : t.host = [] ∧
    ((t.ch = s.ch ∧ t.mem = s.mem) ∨
     (∃ k p, s.ch.get k = some p ∧ p.idx < p.n ∧ t.ch = s.ch.set k (some p.advance) ∧
      t.mem = convertPixel s.cfg k p s.mem) ∨
     (∃ k p, s.ch.get k = some p ∧ p.idx = p.n ∧ t.ch = s.ch.set k none ∧ t.mem = s.mem)) := by
  rcases step_cases hs with ⟨rfl, -, -⟩ | ⟨a, σ, d, ha, -⟩
  · exact ⟨hh, .inl ⟨rfl, rfl⟩⟩
  cases a with
  | host =>
    cases (hostStep_of_host_nil (s := { s with schedule := σ, draws := d }) hh).symm.trans ha
    exact ⟨hh, .inl ⟨rfl, rfl⟩⟩
  | channel k =>
    rcases channelStep_cases ha with ⟨rfl, -⟩ | ⟨p, hp, hi, -, -, rfl⟩ | ⟨p, hp, hi, rfl⟩
    · exact ⟨hh, .inl ⟨rfl, rfl⟩⟩
    · exact ⟨hh, .inr (.inl ⟨k, p, hp, hi, rfl, rfl⟩)⟩
    · exact ⟨hh, .inr (.inr ⟨k, p, hp, hi, rfl, rfl⟩)⟩

/-- What R58 and R120 say of the memory of `t`, where the passes in flight in `s` have all ended: their remaining pixels are
converted from the memory of `s`, and no other byte changed. -/
structure Drained (s t : State) : Prop where
  pixels : ∀ k p, s.ch.get k = some p → ∀ i, p.idx ≤ i → i < p.n → pixelConverted s.cfg k p.src p.dst i s.mem t.mem
  others : ∀ a, (∀ k p, s.ch.get k = some p → ¬ p.Pending k a) → t.mem.read a = s.mem.read a

theorem Drained.of_allIdle {s : State} (h : s.allIdle) : Drained s s where
  pixels k p hp := absurd (h k) (by simp [hp])
  others _ _ := rfl

/-- A step that writes nothing and keeps the passes with pixels left keeps what is left to convert. -/
theorem Drained.of_mem_eq {s u t : State} (hd : Drained u t) (hcfg : u.cfg = s.cfg) (hmem : u.mem = s.mem)
    (hch : ∀ k p, p.idx < p.n → (u.ch.get k = some p ↔ s.ch.get k = some p)) : Drained s t where
  pixels k p hp i hlo hhi := by
    rw [← hcfg, ← hmem]
    exact hd.pixels k p ((hch k p (hlo.trans_lt hhi)).2 hp) i hlo hhi
  others a ha := by
    rw [← hmem]
    exact hd.others a fun k p hp hpend => ha k p ((hch k p hpend.idx_lt).1 hp) hpend

/-- What is left to convert after a pixel step, together with the pixel it converted, is what was left before it: the steps after
it read no byte it wrote and do not write its pixel again. -/
theorem Drained.of_pixelStep {s u t : State} (hd : Drained u t) (h : s.Inv) {k : Chan} {p : Pass}
    (hp : s.ch.get k = some p) (hi : p.idx < p.n) (hcfg : u.cfg = s.cfg) (hch : u.ch = s.ch.set k (some p.advance))
    (hmem : u.mem = convertPixel s.cfg k p s.mem) : Drained s t := by
  have hown : u.ch.get k = some p.advance := by rw [hch, Channels.get_set_same]
  have hother : ∀ j, j ≠ k → u.ch.get j = s.ch.get j := fun j hj => by rw [hch, Channels.get_set_other _ _ hj]
  have sourceKept : ∀ j q, s.ch.get j = some q → ∀ i, i < q.n →
      pixelConverted u.cfg j q.src q.dst i u.mem t.mem → pixelConverted s.cfg j q.src q.dst i s.mem t.mem := by
    intro j q hq i hin hconv
    rw [hcfg, hmem] at hconv
    refine (pixelConverted_congr (fun a hlo hhi => ?_) fun _ _ _ => rfl).1 hconv
    exact convertPixel_read_outside h.memWf _ hi
      (h.dst_has_eq_false_of_src hq hp (Pass.srcRegion_has_pixel hin hlo hhi))
  have writtenOnce : pixelConverted s.cfg k p.src p.dst p.idx s.mem t.mem := by
    refine (pixelConverted_congr (fun _ _ _ => rfl) fun a hlo hhi => ?_).2 (pixelConverted_convertPixel h.memWf s.cfg k p)
    rw [← hmem]
    refine hd.others a fun j q hq hpend => ?_
    by_cases hjk : j = k
    · subst hjk
      cases hown.symm.trans hq
      exact Nat.not_le.2 hhi (Pass.pending_advance.1 hpend).2
    · have hfree := h.dst_has_eq_false_of_dst (Ne.symm hjk) hp ((hother j hjk).symm.trans hq)
        (Pass.dstRegion_has_pixel hi hlo hhi)
      exact Bool.false_ne_true (hfree.symm.trans hpend.dstRegion_has)
  refine ⟨fun j q hq i hlo hhi => ?pixels, fun a ha => ?others⟩
  case pixels =>
    by_cases hjk : j = k
    · subst hjk
      cases hp.symm.trans hq
      rcases hlo.eq_or_lt with rfl | hlt
      · exact writtenOnce
      · exact sourceKept j p hp i hhi (hd.pixels j p.advance hown i hlt hhi)
    · exact sourceKept j q hq i hhi (hd.pixels j q ((hother j hjk).trans hq) i hlo hhi)
  case others =>
    have hstep : u.mem.read a = s.mem.read a := by
      rw [hmem]
      exact convertPixel_read_of_not_pending h.memWf _ hi (ha k p hp)
    refine (hd.others a fun j q hq hpend => ?_).trans hstep
    by_cases hjk : j = k
    · subst hjk
      cases hown.symm.trans hq
      exact ha j p hp (Pass.pending_advance.1 hpend).1
    · exact ha j q ((hother j hjk).symm.trans hq) hpend

theorem Drained.of_step {s u t : State} (hd : Drained u t) (h : s.Inv) (hh : s.host = []) (hs : step s = .next u) :
    Drained s t := by
  have hcfg := step_cfg hs
  rcases (step_cases_of_host_nil hh hs).2 with ⟨hch, hmem⟩ | ⟨k, p, hp, hi, hch, hmem⟩ | ⟨k, p, hp, hi, hch, hmem⟩
  · exact hd.of_mem_eq hcfg hmem fun j q _ => by rw [hch]
  · exact hd.of_pixelStep h hp hi hcfg hch hmem
  · refine hd.of_mem_eq hcfg hmem fun j q hq => ?_
    rw [hch, Channels.get_set]
    split_ifs with hjk
    · subst hjk
      refine iff_of_false (nomatch ·) fun hjq => ?_
      cases hp.symm.trans hjq
      exact hq.ne hi
    · rfl

/-- Passes the host leaves alone are drained by any run that ends with every channel idle, whatever the turns. -/
theorem drained_of_run {m : Nat} {s t : State} (h : s.Inv) (hh : s.host = []) (hr : run m s = .next t) (ht : t.allIdle) :
    Drained s t := by
  induction m generalizing s with
  | zero =>
    cases hr
    exact .of_allIdle ht
  | succ m ih =>
    obtain ⟨u, hs, hr⟩ := run_succ_cases hr
    exact (ih (step_inv h hs) (step_cases_of_host_nil hh hs).1 hr).of_step h hh hs

/-- Settles O44, by induction on the steps from the end of the run: what is left to convert after a step, and the pixel the step
converted, are what was left before it. -/
theorem drainedPassesHaveConvertedEveryPixel : Obligations.DrainedPassesHaveConvertedEveryPixel := by
  intro s t m h hh hr ht
  obtain ⟨pixels, others⟩ := drained_of_run h hh hr ht
  exact ⟨pixels, others⟩

end Sys2Proof.Machine
end

section
/-! A descriptor as one number (30_encoding.md R80, log 2): splitting a number into the five fields and putting the fields together
are inverse to each other, for every ADDR_W. -/

namespace Sys2Proof

/-! ## Bit fields -/

/-- The lowest field of a number built from a field of `len` bits and what stands above it. -/
theorem bitField_zero_add_mul {x len : Nat} (hx : x < 2 ^ len) (y : Nat) : bitField (x + 2 ^ len * y) 0 len = x := by
  rw [bitField, pow_zero, Nat.div_one, Nat.add_mul_mod_self_left, Nat.mod_eq_of_lt hx]

/-- Above its lowest field of `m` bits, a number has the fields of what stands there. -/
theorem bitField_add_mul {x m : Nat} (hx : x < 2 ^ m) (y lo len : Nat) :
    bitField (x + 2 ^ m * y) (m + lo) len = bitField y lo len := by
  rw [bitField, pow_add, ← Nat.div_div_eq_div_mul, Nat.add_mul_div_left _ _ (Nat.two_pow_pos m), Nat.div_eq_of_lt hx,
    zero_add, bitField]

/-- The field just above the lowest one. -/
theorem bitField_add_mul_self {x m : Nat} (hx : x < 2 ^ m) (y len : Nat) :
    bitField (x + 2 ^ m * y) m len = bitField y 0 len :=
  bitField_add_mul hx y 0 len

/-- A number that fits a field is that field's value. -/
theorem bitField_zero_of_lt {x len : Nat} (hx : x < 2 ^ len) : bitField x 0 len = x := by
  simpa using bitField_zero_add_mul hx 0

/-- What stands from bit `lo` up is the field there and what stands above the field. -/
theorem bitField_add_mul_div (bits lo len : Nat) :
    bitField bits lo len + 2 ^ len * (bits / 2 ^ (lo + len)) = bits / 2 ^ lo := by
  rw [bitField, pow_add, ← Nat.div_div_eq_div_mul, Nat.mod_add_div]

theorem toNat_ofNat_bitField (bits lo len : Nat) : (BitVec.ofNat len (bitField bits lo len)).toNat = bitField bits lo len :=
  (BitVec.toNat_ofNat _ _).trans (Nat.mod_eq_of_lt (bitField_lt bits lo len))

/-! ## The five fields and the number -/

/-- The number of a descriptor, each field with what stands above it. -/
theorem Descriptor.toBits_nested (c : Config) (d : Descriptor) :
    d.toBits c =
      d.ctrl.toNat + 2 ^ 32 * (d.src + 2 ^ c.addrW * (d.dst + 2 ^ c.addrW * (d.width.toNat + 2 ^ 32 * d.height.toNat))) := by
  rw [Descriptor.toBits]
  ring

/-- A descriptor whose addresses fit ADDR_W bits is read back from its number (R80, R82). -/
theorem Descriptor.ofBits_toBits {c : Config} {d : Descriptor} (hsrc : d.src < c.space) (hdst : d.dst < c.space) :
    Descriptor.ofBits c (d.toBits c) = d := by
  have hctrl : bitField (d.toBits c) 0 32 = d.ctrl.toNat := by
    rw [toBits_nested, bitField_zero_add_mul d.ctrl.isLt]
  have hsrc' : bitField (d.toBits c) 32 c.addrW = d.src := by
    rw [toBits_nested, bitField_add_mul_self d.ctrl.isLt, bitField_zero_add_mul hsrc]
  have hdst' : bitField (d.toBits c) (32 + c.addrW) c.addrW = d.dst := by
    rw [toBits_nested, bitField_add_mul d.ctrl.isLt, bitField_add_mul_self hsrc, bitField_zero_add_mul hdst]
  have hwidth : bitField (d.toBits c) (32 + 2 * c.addrW) 32 = d.width.toNat := by
    rw [toBits_nested, two_mul, bitField_add_mul d.ctrl.isLt, bitField_add_mul hsrc, bitField_add_mul_self hdst,
      bitField_zero_add_mul d.width.isLt]
  have hheight : bitField (d.toBits c) (64 + 2 * c.addrW) 32 = d.height.toNat := by
    have position : 64 + 2 * c.addrW = 32 + (c.addrW + (c.addrW + 32)) := by omega
    rw [toBits_nested, position, bitField_add_mul d.ctrl.isLt, bitField_add_mul hsrc, bitField_add_mul hdst,
      bitField_add_mul_self d.width.isLt, bitField_zero_of_lt d.height.isLt]
  simp only [Descriptor.ofBits, hctrl, hsrc', hdst', hwidth, hheight, BitVec.ofNat_toNat, BitVec.setWidth_eq]

/-- A number of 96 + 2*ADDR_W bits is the number of its five fields: the fields leave out no bit of it (R80). -/
theorem Descriptor.toBits_ofBits {c : Config} {bits : Nat} (h : bits < 2 ^ (96 + 2 * c.addrW)) :
    (Descriptor.ofBits c bits).toBits c = bits := by
  have top : bits / 2 ^ (64 + 2 * c.addrW + 32) = 0 :=
    Nat.div_eq_of_lt (by rwa [Nat.add_right_comm])
  have hheight : bitField bits (64 + 2 * c.addrW) 32 = bits / 2 ^ (32 + 2 * c.addrW + 32) := by
    rw [Nat.add_right_comm 32, ← bitField_add_mul_div bits (64 + 2 * c.addrW) 32, top, mul_zero, add_zero]
  have hdst : bitField bits (32 + c.addrW) c.addrW + 2 ^ c.addrW * (bits / 2 ^ (32 + 2 * c.addrW)) =
      bits / 2 ^ (32 + c.addrW) := by
    rw [two_mul, ← add_assoc, bitField_add_mul_div]
  rw [toBits_nested]
  simp only [Descriptor.ofBits, toNat_ofNat_bitField]
  rw [hheight, bitField_add_mul_div, hdst, bitField_add_mul_div, bitField_add_mul_div bits 0 32, pow_zero, Nat.div_one]

end Sys2Proof
end

section
/-! The decoder and the encoder are inverse to each other, CTRL alone chooses the operation, and every other CTRL is reserved
(30_encoding.md R87 to R93). -/

namespace Sys2Proof

/-! ## Decoding and encoding the five fields -/

/-- Each command is its row of the opcode map. -/
theorem Instr.opcodeRow (i : Instr) : Laws.OpcodeRow.Statement i := by
  cases i with
  | rgba8ToRgb8 o => exact Laws.OpcodeRow.rgba8ToRgb8 o
  | rgba8ToRgb565 o => exact Laws.OpcodeRow.rgba8ToRgb565 o
  | rgba8ToRgba4 o => exact Laws.OpcodeRow.rgba8ToRgba4 o
  | rgba8ToLa88 o => exact Laws.OpcodeRow.rgba8ToLa88 o
  | rgb565ToRgba5551 o => exact Laws.OpcodeRow.rgb565ToRgba5551 o

theorem Instr.encode_ctrl_toNat (i : Instr) : i.encode.ctrl.toNat = i.op := i.opcodeRow.1

theorem Instr.decode_encode (i : Instr) : i.encode.decode = .cmd i := i.opcodeRow.2.2

theorem Instr.op_bounds (i : Instr) : 1 ≤ i.op ∧ i.op ≤ 5 := by
  cases i <;> simp [Instr.op]

/-- Every CTRL but 1 to 5 is reserved (R88): a command's encoding has its operation number as CTRL. -/
theorem Descriptor.decode_eq_reserved {d : Descriptor} (h : ¬ (1 ≤ d.ctrl.toNat ∧ d.ctrl.toNat ≤ 5)) :
    d.decode = .reserved := by
  cases hd : d.decode with
  | reserved => rfl
  | cmd i =>
    refine absurd ?_ h
    rw [← encode_of_decode hd, i.encode_ctrl_toNat]
    exact i.op_bounds

/-- Settles O3: a well-formed command's descriptor survives the number, and its fields decode back to it. -/
theorem decodeOfEncodeIsTheCommand : Obligations.DecodeOfEncodeIsTheCommand := by
  intro c i hwf
  obtain ⟨hsrc, hdst⟩ := Bool.and_eq_true_iff.1 hwf
  have readBack : Descriptor.ofBits c (encodeBits c i) = i.encode :=
    Descriptor.ofBits_toBits (of_decide_eq_true hsrc) (of_decide_eq_true hdst)
  rw [decodeBits, readBack, i.decode_encode]

/-- Settles O4: a command's encoding is the descriptor it was decoded from, and that descriptor's number is the one presented. -/
theorem encodeOfDecodeIsTheDescriptor : Obligations.EncodeOfDecodeIsTheDescriptor := by
  intro c bits i hbits hd
  refine ⟨?_, wf_of_decodeBits hd⟩
  rw [encodeBits, Descriptor.encode_of_decode hd, Descriptor.toBits_ofBits hbits]

/-- Settles O1: a decoded command's encoding is the descriptor itself, so the command has its fields. -/
theorem decodingLooksAtCtrlAlone : Obligations.DecodingLooksAtCtrlAlone := by
  intro d
  refine ⟨?op1, ?op2, ?op3, ?op4, ?op5, Descriptor.decode_eq_reserved, ?fields⟩
  case fields =>
    intro i hd
    rw [← Descriptor.encode_of_decode hd]
    exact ⟨i.encode_ctrl_toNat.symm, rfl, rfl, rfl⟩
  all_goals
    intro hctrl
    simp only [Descriptor.decode, hctrl]

/-- The descriptor whose words but CTRL are zeros is, as one number, its control word. -/
theorem decodeTableWord_ctrl (ctrl : U32) :
    decodeTableWord 32 ctrl.toNat = (Descriptor.mk ctrl 0 0 0 0).decode.instr? := by
  have hnumber : (Descriptor.mk ctrl 0 0 0 0).toBits .default = ctrl.toNat := by simp [Descriptor.toBits]
  rw [decodeTableWord, decodeBits, Nat.mod_eq_of_lt ctrl.isLt, ← hnumber,
    Descriptor.ofBits_toBits (Nat.two_pow_pos _) (Nat.two_pow_pos _)]

theorem decodeTableWord_of_reserved {ctrl : U32} (h : ¬ (1 ≤ ctrl.toNat ∧ ctrl.toNat ≤ 5)) :
    decodeTableWord 32 ctrl.toNat = none := by
  rw [decodeTableWord_ctrl, Descriptor.decode_eq_reserved h, Decoded.instr?]

/-- Settles O5: a control word with operand words of zeros decodes as its CTRL says. -/
theorem tableWordsDecodeToTheirCommands : Obligations.TableWordsDecodeToTheirCommands :=
  ⟨decodeTableWord_ctrl 1, decodeTableWord_ctrl 2, decodeTableWord_ctrl 3, decodeTableWord_ctrl 4, decodeTableWord_ctrl 5,
    decodeTableWord_of_reserved (ctrl := 0) (by decide), decodeTableWord_of_reserved (ctrl := 6) (by decide),
    decodeTableWord_of_reserved (ctrl := 9) (by decide), decodeTableWord_of_reserved (ctrl := 0x80000002) (by decide),
    decodeTableWord_of_reserved (ctrl := 0xFFFFFFFF) (by decide)⟩

end Sys2Proof

namespace Sys2Proof.Machine

/-! ## The issue of a reserved descriptor -/

/-- The host presents a descriptor at its turn. -/
theorem step_host_issue {s : State} {bits : Nat} {lent : Lent} {rest : List HostMove} {σ : List Agent}
    (hturn : s.schedule = .host :: σ) (hmove : s.host = .issue bits lent :: rest) :
    step s = hostIssue bits lent rest { s with schedule := σ } := by
  simp only [step, hturn, act, hostStep, hmove]

theorem hostIssue_reserved {bits : Nat} {s : State} (h : decodeBits s.cfg bits = .reserved) (lent : Lent)
    (rest : List HostMove) : hostIssue bits lent rest s = .refused .reservedEncoding := by
  rw [hostIssue, h]

/-- Settles O2: each reserved value of the control word is outside 1 to 5, and the host's turn decodes what it presents. -/
theorem reservedDescriptorsAreRefused : Obligations.ReservedDescriptorsAreRefused := by
  refine ⟨fun d hctrl => ?decoded, fun s bits lent rest σ hturn hmove hctrl => ?refused⟩
  case decoded => exact Descriptor.decode_eq_reserved (by omega)
  case refused =>
    have reserved : decodeBits s.cfg bits = .reserved := Descriptor.decode_eq_reserved hctrl
    rw [step_host_issue hturn hmove]
    exact hostIssue_reserved (s := { s with schedule := σ }) reserved lent rest

end Sys2Proof.Machine
end

section
/-! What the memory of drained passes is (40_pass_common.md R114, R115, R118): the state before the drain fixes every byte of it,
and the source bytes of a pass fix the bytes the pass writes. -/

namespace Sys2Proof.Machine

/-! ## The bytes of a converted pixel -/

/-- Byte `j` of a converted pixel is byte `j` of the stage of its source pixel (R43, R58). -/
theorem pixelConverted_byte {c : Config} {k : Chan} {src dst i : Nat} {m0 m : Memory}
    (h : pixelConverted c k src dst i m0 m) {j : Nat} (hj : j < k.dstBytes) :
    m.read (dst + i * k.dstBytes + j) =
      (stage c k (memRead m0 (src + i * k.srcBytes) k.srcBytes)).extractLsb' (8 * j) 8 := by
  rw [← h, memRead_byte _ _ _ _ hj]

/-- Byte `j` of a run of `b`-byte pixels is a byte of one of them. -/
theorem exists_pixel_of_byte {b j : Nat} (hb : 0 < b) : ∃ i r, r < b ∧ j = i * b + r :=
  ⟨j / b, j % b, Nat.mod_lt j hb, (Nat.div_add_mod' j b).symm⟩

/-- A byte pending belongs to a pixel at or after the index. -/
theorem Pass.Pending.exists_pixel {p : Pass} {k : Chan} {a : Nat} (h : p.Pending k a) :
    ∃ i j, p.idx ≤ i ∧ i < p.n ∧ j < k.dstBytes ∧ a = p.dst + i * k.dstBytes + j := by
  obtain ⟨hlo, hhi⟩ := h
  obtain ⟨i, j, hj, hij⟩ := exists_pixel_of_byte (j := a - p.dst) k.dstBytes_pos
  have hidx : p.idx * k.dstBytes < (i + 1) * k.dstBytes := by rw [Nat.add_mul]; omega
  have hn : i * k.dstBytes < p.n * k.dstBytes := by omega
  exact ⟨i, j, Nat.lt_succ_iff.1 (Nat.lt_of_mul_lt_mul_right hidx), Nat.lt_of_mul_lt_mul_right hn, hj, by omega⟩

/-! ## One memory for every schedule -/

/-- The state before the drain fixes the memory after it: a pending byte is a byte of the stage of its source pixel, and every
other byte is as it was. -/
theorem Drained.read_eq {s t u : State} (ht : Drained s t) (hu : Drained s u) (a : Nat) : t.mem.read a = u.mem.read a := by
  by_cases ha : ∃ k p, s.ch.get k = some p ∧ p.Pending k a
  case pos =>
    obtain ⟨k, p, hp, hpend⟩ := ha
    obtain ⟨i, j, hlo, hhi, hj, rfl⟩ := hpend.exists_pixel
    rw [pixelConverted_byte (ht.pixels k p hp i hlo hhi) hj, pixelConverted_byte (hu.pixels k p hp i hlo hhi) hj]
  case neg =>
    have outside : ∀ k p, s.ch.get k = some p → ¬ p.Pending k a := fun k p hp hpend => ha ⟨k, p, hp, hpend⟩
    rw [ht.others a outside, hu.others a outside]

/-- What is drained does not depend on the turns and the draws. -/
theorem drained_of_run_of_turns {s t : State} {σ : List Agent} {d m : Nat} (h : s.Inv) (hh : s.host = [])
    (hr : run m { s with schedule := σ, draws := d } = .next t) (ht : t.allIdle) : t.Inv ∧ Drained s t := by
  have turnsGiven : State.Inv { s with schedule := σ, draws := d } := h.of_eq rfl rfl rfl
  exact ⟨(run_inv turnsGiven hr).1, (drained_of_run turnsGiven hh hr ht).of_mem_eq rfl rfl fun _ _ _ => Iff.rfl⟩

/-- Settles O46: both runs drain the passes of one state, so their memories, which are canonical, read alike everywhere. -/
theorem finalMemoryIsTheSameForEverySchedule : Obligations.FinalMemoryIsTheSameForEverySchedule := by
  intro s t u σ τ d e m n h hh hrt ht hru hu
  obtain ⟨htInv, htDrained⟩ := drained_of_run_of_turns h hh hrt ht
  obtain ⟨huInv, huDrained⟩ := drained_of_run_of_turns h hh hru hu
  exact Memory.ext_read htInv.memWf huInv.memWf (htDrained.read_eq huDrained)

/-! ## The source bytes alone -/

/-- Equal source bytes give equal stages, whatever the memories and the addresses; operation 4 looks at the luma arithmetic too
(R164). -/
theorem stage_memRead_congr {c c' : Config} {k : Chan} {m m' : Memory} {a a' : Nat}
    (hluma : k = .ch4 → c.lumaArith = c'.lumaArith)
    (hbytes : ∀ j, j < k.srcBytes → m.read (a + j) = m'.read (a' + j)) :
    stage c k (memRead m a k.srcBytes) = stage c' k (memRead m' a' k.srcBytes) := by
  rw [stage_congr hluma, memRead_congr hbytes]

/-- Settles O50: byte `j` of either destination is byte `j % DB` of the stage of source pixel `j / DB`, and the two source pixels
hold the same bytes. -/
theorem passOutputDependsOnSourceBytesOnly : Obligations.PassOutputDependsOnSourceBytesOnly := by
  intro k p q s s' t t' m m' h h' hh hh' hluma hp hq hp0 hq0 hn hbytes hr ht hr' ht' j hj
  have converted := (drained_of_run h hh hr ht).pixels k p hp
  have converted' := (drained_of_run h' hh' hr' ht').pixels k q hq
  obtain ⟨i, r, hlt, rfl⟩ := exists_pixel_of_byte (j := j) k.dstBytes_pos
  have hi : i < p.n := Nat.lt_of_mul_lt_mul_right (a := k.dstBytes) (by omega)
  have sameSource : ∀ l, l < k.srcBytes →
      s.mem.read (p.src + i * k.srcBytes + l) = s'.mem.read (q.src + i * k.srcBytes + l) := by
    intro l hl
    have inRegion := pixel_inside (x := 0) (b := k.srcBytes) hi
    rw [Nat.add_assoc, Nat.add_assoc]
    exact hbytes _ (by omega)
  rw [← Nat.add_assoc, ← Nat.add_assoc, pixelConverted_byte (converted i (hp0 ▸ Nat.zero_le i) hi) hlt,
    pixelConverted_byte (converted' i (hq0 ▸ Nat.zero_le i) (hn ▸ hi)) hlt, stage_memRead_congr hluma sameSource]

end Sys2Proof.Machine
end

section
/-! A turn of one channel (40_pass_common.md R104, R108, R109, R112): what it writes, what it leaves alone, and that turns of
different channels commute (R115). -/

namespace Sys2Proof.Machine

/-! ## Channel records and leases -/

/-- Writing a record that is there already changes nothing. -/
theorem Channels.set_eq_self {c : Channels} {k : Chan} {v : Option Pass} (h : c.get k = v) : c.set k v = c :=
  Channels.ext_get fun j => by
    rw [Channels.get_set]
    split_ifs with hjk
    · rw [hjk, h]
    · rfl

/-- The last write of a record stands. -/
@[simp] theorem Channels.set_set (c : Channels) (k : Chan) (v w : Option Pass) : (c.set k v).set k w = c.set k w := by
  cases k <;> rfl

theorem leasedSrc_eq_true (s : State) (a : Nat) :
    s.leasedSrc a = true ↔ ∃ k p, s.ch.get k = some p ∧ (p.srcRegion k).has a = true := by
  rw [← Bool.not_eq_false, leasedSrc_eq_false]
  simp

theorem leasedDst_eq_true (s : State) (a : Nat) :
    s.leasedDst a = true ↔ ∃ k p, s.ch.get k = some p ∧ (p.dstRegion k).has a = true := by
  rw [← Bool.not_eq_false, leasedDst_eq_false]
  simp

/-- The passes in flight after a retire step are those of the other channels (R109). -/
theorem retire_get_eq_some {s : State} {j k : Chan} {q : Pass} :
    (retire k s).ch.get j = some q ↔ j ≠ k ∧ s.ch.get j = some q := by
  rw [retire_ch, Channels.get_set]
  split_ifs with hjk <;> simp [hjk]

/-- Settles O22: the step is `retire`, after which the passes in flight are those of the other channels. -/
theorem retireSignalsDoneAndEndsTheLease : Obligations.RetireSignalsDoneAndEndsTheLease := by
  intro k p s hp hi
  have othersKept : ∀ j, j ≠ k → (retire k s).ch.get j = s.ch.get j := fun j hj => Channels.get_set_other _ _ hj
  refine ⟨retire k s, channelStep_retire hp hi, Channels.get_set_same _ _ _, rfl, othersKept, rfl, rfl, rfl, rfl, rfl, rfl,
    fun a => ?dst, fun a => ?src⟩
  case dst => simp only [leasedDst_eq_true, retire_get_eq_some, and_assoc]
  case src => simp only [leasedSrc_eq_true, retire_get_eq_some, and_assoc]

/-! ## The pixel step -/

/-- The state after the pixel step of pass `p` on channel `k` (R104). -/
def afterPixel (k : Chan) (p : Pass) (s : State) : State :=
  { s.setCh k (some p.advance) with mem := convertPixel s.cfg k p s.mem }

/-- Regions inside the address space hold the pixel at the index, so the pixel step is not refused (R47). -/
theorem channelStep_eq_afterPixel {k : Chan} {p : Pass} {s : State} (hp : s.ch.get k = some p) (hi : p.idx < p.n)
    (hsrc : p.src + p.n * k.srcBytes ≤ s.cfg.space) (hdst : p.dst + p.n * k.dstBytes ≤ s.cfg.space) :
    channelStep k s = .next (afterPixel k p s) :=
  (channelStep_pixel hp hi).trans (pixelStep_next ((pixel_inside hi).trans hsrc) ((pixel_inside hi).trans hdst))

/-- While the index is below the count, the only next state of a channel's turn is that of the pixel step. -/
theorem eq_afterPixel_of_channelStep {k : Chan} {p : Pass} {s t : State} (hp : s.ch.get k = some p) (hi : p.idx < p.n)
    (hs : channelStep k s = .next t) : t = afterPixel k p s := by
  rw [channelStep_pixel hp hi] at hs
  exact (pixelStep_cases hs).2.2

/-- Settles O21: the step is `afterPixel`, whose memory is the one after the write of the converted pixel. -/
theorem pixelStepConvertsOnePixel : Obligations.PixelStepConvertsOnePixel := by
  refine ⟨rfl, rfl, fun k p s hwf hp hi hsrc hdst => ?_⟩
  refine ⟨afterPixel k p s, channelStep_eq_afterPixel hp hi hsrc hdst, Channels.get_set_same _ _ _,
    fun j hj => Channels.get_set_other _ _ hj, ?pixel, fun a ha => ?frame, convertPixel_wf hwf _ _ _,
    rfl, rfl, rfl, rfl, rfl, rfl⟩
  case pixel => exact memRead_convertPixel hwf s.cfg k p
  case frame => exact convertPixel_read_other hwf s.cfg k p ha

/-- Settles O23: either step writes byte `j` of the stage of its source pixel, and equal source bytes have equal stages. -/
theorem writtenPixelDependsOnlyOnItsSourceBytes : Obligations.WrittenPixelDependsOnlyOnItsSourceBytes := by
  intro k p q s s' t t' hwf hwf' hp hq hi hi' hluma hs hs' hbytes j hj
  cases eq_afterPixel_of_channelStep hp hi hs
  cases eq_afterPixel_of_channelStep hq hi' hs'
  calc (afterPixel k p s).mem.read (p.dst + p.idx * k.dstBytes + j)
      = (stage s.cfg k (memRead s.mem (p.srcAddr k) k.srcBytes)).extractLsb' (8 * j) 8 := convertPixel_read_byte hwf _ k p hj
    _ = (stage s'.cfg k (memRead s'.mem (q.srcAddr k) k.srcBytes)).extractLsb' (8 * j) 8 :=
        congrArg (BitVec.extractLsb' (8 * j) 8) (stage_memRead_congr hluma hbytes)
    _ = (afterPixel k q s').mem.read (q.dst + q.idx * k.dstBytes + j) := (convertPixel_read_byte hwf' _ k q hj).symm

/-! ## Sequencing -/

/-- The turn of a channel with no step enabled passes (log 4). -/
theorem channelStep_of_not_enabled {k : Chan} {s : State} (h : s.channelEnabled k = false) : channelStep k s = .next s := by
  cases hp : s.ch.get k with
  | none => simp [channelStep, hp]
  | some p =>
    have hi : p.n < p.idx := by simpa [State.channelEnabled, hp] using h
    simp [channelStep, hp, hi.not_gt, hi.ne']

/-- A pixel that would pass 2^ADDR_W is refused (log 11). -/
theorem pixelStep_eq_refused {k : Chan} {p : Pass} {s : State}
    (h : s.cfg.space < p.srcAddr k + k.srcBytes ∨ s.cfg.space < p.dstAddr k + k.dstBytes) :
    pixelStep k p s = .refused .addressWrap :=
  if_pos h

/-- Settles O24: which of its cases a channel's turn takes, and what the case does to every field but memory, is said of the
channel's record and the configuration alone. -/
theorem sequencingIgnoresPixelData : Obligations.SequencingIgnoresPixelData := by
  intro k s m
  refine ⟨fun t hs => ?next, fun r hs => ?refused, fun r => nomatch r⟩
  case next =>
    rcases channelStep_cases hs with ⟨rfl, hoff⟩ | ⟨p, hp, hi, hsrc, hdst, rfl⟩ | ⟨p, hp, hi, rfl⟩
    · exact ⟨m, channelStep_of_not_enabled (s := { t with mem := m }) hoff⟩
    · exact ⟨convertPixel s.cfg k p m,
        (channelStep_pixel (s := { s with mem := m }) hp hi).trans (pixelStep_next hsrc hdst)⟩
    · exact ⟨m, channelStep_retire (s := { s with mem := m }) hp hi⟩
  case refused =>
    obtain ⟨p, hp, hi, rfl, hwrap⟩ := channelStep_refused hs
    exact (channelStep_pixel (s := { s with mem := m }) hp hi).trans (pixelStep_eq_refused hwrap)

/-! ## A turn as a function of the record -/

/-- What a turn makes of the record of its channel: the index moves on, and falls to idle at the count (R25, R104, R109). -/
def recordAfter : Option Pass → Option Pass
  | none => none
  | some p => if p.idx < p.n then some p.advance else if p.idx = p.n then none else some p

/-- What a turn of channel `k` with that record makes of memory (R104). -/
def memAfter (c : Config) (k : Chan) : Option Pass → Memory → Memory
  | none, m => m
  | some p, m => if p.idx < p.n then convertPixel c k p m else m

/-- What a turn of channel `k` with that record signals (R109). -/
def signalled (k : Chan) : Option Pass → List Seen
  | none => []
  | some p => if p.idx = p.n then [.done k] else []

/-- The whole effect of a turn, said by the record of its channel. -/
def afterTurn (k : Chan) (s : State) : State :=
  { s with
    ch := s.ch.set k (recordAfter (s.ch.get k))
    mem := memAfter s.cfg k (s.ch.get k) s.mem
    seen := signalled k (s.ch.get k) ++ s.seen }

/-- The turn of a channel with no step enabled is the one that leaves the record, memory and the host's record. -/
theorem afterTurn_of_not_enabled {k : Chan} {s : State} (h : s.channelEnabled k = false) : afterTurn k s = s := by
  unfold afterTurn
  cases hp : s.ch.get k with
  | none => simp only [recordAfter, memAfter, signalled, Channels.set_eq_self hp, List.nil_append]
  | some p =>
    have hi : p.n < p.idx := by simpa [State.channelEnabled, hp] using h
    simp only [recordAfter, memAfter, signalled, if_neg hi.not_gt, if_neg hi.ne', Channels.set_eq_self hp,
      List.nil_append]

/-- A turn that answers a next state has that effect. -/
theorem eq_afterTurn_of_channelStep {k : Chan} {s t : State} (hs : channelStep k s = .next t) : t = afterTurn k s := by
  rcases channelStep_cases hs with ⟨rfl, hoff⟩ | ⟨p, hp, hi, -, -, rfl⟩ | ⟨p, hp, hi, rfl⟩
  · exact (afterTurn_of_not_enabled hoff).symm
  · simp only [afterTurn, hp, recordAfter, memAfter, signalled, if_pos hi, if_neg hi.ne]
    rfl
  · simp only [afterTurn, hp, recordAfter, memAfter, signalled, hi, lt_irrefl, if_false, if_true]
    rfl

/-- A turn leaves the records of the other channels. -/
theorem afterTurn_get_other {j k : Chan} (h : k ≠ j) (s : State) : (afterTurn j s).ch.get k = s.ch.get k :=
  Channels.get_set_other _ _ h

/-! ## Turns of different channels -/

/-- A byte after a multi-byte write: byte `c - a` of the value inside what was written, the byte before outside. -/
theorem memWrite_read {m : Memory} (h : m.wf = true) (a n : Nat) (v : BitVec (8 * n)) (c : Nat) :
    (memWrite m a n v).read c = if a ≤ c ∧ c < a + n then v.extractLsb' (8 * (c - a)) 8 else m.read c := by
  split_ifs with hc
  · obtain ⟨j, rfl⟩ := Nat.exists_eq_add_of_le hc.1
    rw [memWrite_read_byte h a n v (by omega), Nat.add_sub_cancel_left]
  · exact memWrite_read_other h a n v (by omega)

/-- Writes to addresses apart may be exchanged. -/
theorem memWrite_comm {m : Memory} (h : m.wf = true) {a b n l : Nat} (v : BitVec (8 * n)) (w : BitVec (8 * l))
    (hd : b + l ≤ a ∨ a + n ≤ b) :
    memWrite (memWrite m a n v) b l w = memWrite (memWrite m b l w) a n v := by
  have hv := memWrite_wf h a n v
  have hw := memWrite_wf h b l w
  refine Memory.ext_read (memWrite_wf hv b l w) (memWrite_wf hw a n v) fun c => ?_
  rw [memWrite_read hv, memWrite_read h, memWrite_read hw, memWrite_read h]
  split_ifs with inBoth
  · omega
  all_goals rfl

/-- Pixels of two regions that share no address are apart. -/
theorem pixel_apart_of_not_overlaps {x y i j n m b c : Nat} (h : Region.overlaps ⟨x, n * b⟩ ⟨y, m * c⟩ = false)
    (hb : 0 < b) (hc : 0 < c) (hi : i < n) (hj : j < m) :
    x + i * b + b ≤ y + j * c ∨ y + j * c + c ≤ x + i * b := by
  have hx := pixel_inside (x := x) (b := b) hi
  have hy := pixel_inside (x := y) (b := c) hj
  by_contra hmeet
  refine Bool.false_ne_true (h.symm.trans ((Region.overlaps_iff _ _).2 ⟨max (x + i * b) (y + j * c), ?_, ?_⟩))
  · rw [Region.has_iff]; dsimp only; omega
  · rw [Region.has_iff]; dsimp only; omega

/-- Pixel steps of two passes in flight may be exchanged: neither writes what the other reads or writes (R34 (c)). -/
theorem State.Inv.convertPixel_comm {s : State} (h : s.Inv) {j k : Chan} (hjk : j ≠ k) {p q : Pass}
    (hp : s.ch.get j = some p) (hq : s.ch.get k = some q) (hi : p.idx < p.n) (hi' : q.idx < q.n) :
    convertPixel s.cfg k q (convertPixel s.cfg j p s.mem) = convertPixel s.cfg j p (convertPixel s.cfg k q s.mem) := by
  obtain ⟨hDS, hDD⟩ := h.pairDisjoint j k p q hjk hp hq
  obtain ⟨hDS', -⟩ := h.pairDisjoint k j q p hjk.symm hq hp
  have readApart : p.dstAddr j + j.dstBytes ≤ q.srcAddr k ∨ q.srcAddr k + k.srcBytes ≤ p.dstAddr j :=
    pixel_apart_of_not_overlaps hDS j.dstBytes_pos k.srcBytes_pos hi hi'
  have readApart' : q.dstAddr k + k.dstBytes ≤ p.srcAddr j ∨ p.srcAddr j + j.srcBytes ≤ q.dstAddr k :=
    pixel_apart_of_not_overlaps hDS' k.dstBytes_pos j.srcBytes_pos hi' hi
  have writeApart : p.dstAddr j + j.dstBytes ≤ q.dstAddr k ∨ q.dstAddr k + k.dstBytes ≤ p.dstAddr j :=
    pixel_apart_of_not_overlaps hDD j.dstBytes_pos k.dstBytes_pos hi hi'
  simp only [convertPixel]
  rw [memRead_memWrite_other h.memWf _ _ _ readApart.symm, memRead_memWrite_other h.memWf _ _ _ readApart'.symm]
  exact memWrite_comm h.memWf _ _ writeApart.symm

theorem State.Inv.memAfter_comm {s : State} (h : s.Inv) {j k : Chan} (hjk : j ≠ k) :
    memAfter s.cfg k (s.ch.get k) (memAfter s.cfg j (s.ch.get j) s.mem) =
      memAfter s.cfg j (s.ch.get j) (memAfter s.cfg k (s.ch.get k) s.mem) := by
  cases hp : s.ch.get j with
  | none => rfl
  | some p =>
    cases hq : s.ch.get k with
    | none => rfl
    | some q =>
      simp only [memAfter]
      split_ifs with hi' hi
      · exact h.convertPixel_comm hjk hp hq hi hi'
      all_goals rfl

/-- Settles O45: a turn is said by its channel's record, which the other channel's turn leaves alone; the two records are written
apart, the two memories by pixels apart, and the events of either stand in front of what stood there. -/
theorem stepsOfDifferentChannelsCommute : Obligations.StepsOfDifferentChannelsCommute := by
  intro s a b c d j k h hjk hsa hab hsc hcd
  cases eq_afterTurn_of_channelStep hsa
  cases eq_afterTurn_of_channelStep hsc
  cases eq_afterTurn_of_channelStep hab
  cases eq_afterTurn_of_channelStep hcd
  have hk := afterTurn_get_other hjk.symm s
  have hj := afterTurn_get_other hjk s
  refine ⟨?records, ?memory, rfl, rfl, rfl, rfl, rfl, ?events⟩
  case records =>
    simp only [afterTurn] at hk hj ⊢
    rw [hk, hj, Channels.set_comm _ _ _ hjk]
  case memory =>
    simp only [afterTurn] at hk hj ⊢
    rw [hk, hj, h.memAfter_comm hjk]
  case events =>
    simp only [afterTurn] at hk hj ⊢
    rw [hk, hj, ← List.append_assoc, ← List.append_assoc]
    exact List.perm_append_comm.append_right _

end Sys2Proof.Machine
end

section
/-! Turns counted (40_pass_common.md R119, R121, 70_reset_and_hazards.md R235): with no move of the host a turn of a channel takes
one off the steps it has left, no turn stops the run, and a pass is one turn per pixel and one to retire. -/

namespace Sys2Proof.Machine

/-! ## Runs over a list of turns -/

/-- The first turn listed is taken first. -/
theorem step_of_schedule {a : Agent} {s : State} {σ : List Agent} (h : s.schedule = a :: σ) :
    step s = act a { s with schedule := σ } := by
  simp only [step, h]

theorem channelStep_schedule {k : Chan} {s t : State} (hs : channelStep k s = .next t) : t.schedule = s.schedule := by
  rw [eq_afterTurn_of_channelStep hs]
  rfl

theorem channelStep_host {k : Chan} {s t : State} (hs : channelStep k s = .next t) : t.host = s.host := by
  rw [eq_afterTurn_of_channelStep hs]
  rfl

/-! ## Steps left -/

theorem workOf_eq_zero (s : State) (k : Chan) : s.workOf k = 0 ↔ s.ch.get k = none := by
  unfold State.workOf
  cases s.ch.get k <;> simp

theorem workOf_of_get {s : State} {k : Chan} {p : Pass} (hp : s.ch.get k = some p) : s.workOf k = p.n - p.idx + 1 := by
  simp only [State.workOf, hp]

theorem workOf_congr {s t : State} {k : Chan} (h : t.ch.get k = s.ch.get k) : t.workOf k = s.workOf k := by
  simp only [State.workOf, h]

/-- A turn of a channel takes one off its steps left, and none off those of another channel (R119). -/
theorem channelStep_workOf {k : Chan} {s t : State} (h : s.Inv) (hs : channelStep k s = .next t) (j : Chan) :
    t.workOf j = s.workOf j - if j = k then 1 else 0 := by
  cases eq_afterTurn_of_channelStep hs
  split_ifs with hjk
  case neg => exact workOf_congr (afterTurn_get_other hjk s)
  case pos =>
    subst hjk
    have hget : (afterTurn j s).ch.get j = recordAfter (s.ch.get j) := Channels.get_set_same _ _ _
    cases hp : s.ch.get j with
    | none =>
      rw [hp] at hget
      rw [(workOf_eq_zero _ j).2 hget, (workOf_eq_zero s j).2 hp]
    | some p =>
      rw [hp] at hget
      rw [workOf_of_get hp]
      rcases (h.indexBound j p hp).1.lt_or_eq with hi | hi
      · rw [recordAfter, if_pos hi] at hget
        rw [workOf_of_get hget, Pass.advance_n, Pass.advance_idx]
        omega
      · rw [recordAfter, if_neg hi.not_lt, if_pos hi] at hget
        rw [(workOf_eq_zero _ j).2 hget, hi, Nat.sub_self]

/-! ## Turns the host leaves alone -/

/-- With no move of the host every agent's turn answers, and it takes one off the steps its channel has left. -/
theorem act_of_host_nil {s : State} (h : s.Inv) (hh : s.host = []) (a : Agent) :
    ∃ t, act a s = .next t ∧ t.Inv ∧ t.host = [] ∧ t.schedule = s.schedule ∧
      ∀ j, t.workOf j = s.workOf j - if a = .channel j then 1 else 0 := by
  cases a with
  | host => exact ⟨s, hostStep_of_host_nil hh, h, hh, rfl, fun j => by simp⟩
  | channel k =>
    obtain ⟨t, hs⟩ := channelStep_answers h k
    refine ⟨t, hs, channelStep_inv h hs, (channelStep_host hs).trans hh, channelStep_schedule hs, fun j => ?_⟩
    simp only [channelStep_workOf h hs j, Agent.channel.injEq, eq_comm]

/-- Over a list of turns a channel's steps left fall by the number of its turns. -/
theorem run_turns_of_host_nil {s : State} {σ : List Agent} (h : s.Inv) (hh : s.host = []) (hσ : s.schedule = σ) (k : Chan) :
    ∃ t, run σ.length s = .next t ∧ t.Inv ∧ t.schedule = [] ∧ t.workOf k = s.workOf k - σ.count (.channel k) := by
  induction σ generalizing s with
  | nil => exact ⟨s, run_zero s, h, hσ, rfl⟩
  | cons a σ ih =>
    have turnTaken : State.Inv { s with schedule := σ } := h.of_eq rfl rfl rfl
    obtain ⟨t, hs, ht, hht, hσt, hwork⟩ := act_of_host_nil turnTaken hh a
    obtain ⟨u, hr, hu, hnone, hleft⟩ := ih ht hht hσt
    refine ⟨u, (run_succ_next ((step_of_schedule hσ).trans hs)).trans hr, hu, hnone, ?_⟩
    have hsame : State.workOf { s with schedule := σ } k = s.workOf k := rfl
    rw [hleft, hwork k, hsame, List.count_cons, Nat.sub_sub, Nat.add_comm]
    simp only [beq_iff_eq]

/-- Settles O48: as many turns as steps left leave none, and a channel with none left is idle. -/
theorem enoughTurnsFinishAPass : Obligations.EnoughTurnsFinishAPass := by
  intro k s σ h hh hcount
  have turnsGiven : State.Inv { s with schedule := σ } := h.of_eq rfl rfl rfl
  have left : State.workOf { s with schedule := σ } k ≤ σ.count (.channel k) := hcount
  obtain ⟨t, hr, ht, hσ, hwork⟩ := run_turns_of_host_nil turnsGiven hh rfl k
  exact ⟨t, hr, (workOf_eq_zero t k).1 (hwork.trans (Nat.sub_eq_zero_of_le left)), hσ, ht⟩

/-! ## The free choice -/

theorem work_eq_zero (s : State) : s.work = 0 ↔ s.allIdle := by
  simp only [State.allIdle, ← workOf_eq_zero, State.work]
  constructor
  · intro h k
    cases k <;> omega
  · intro h
    simp only [h]

/-- Where one channel's steps left fall by one, so do those of all channels together. -/
theorem work_of_workOf {s t : State} {k : Chan} (hk : 0 < s.workOf k)
    (h : ∀ j, t.workOf j = s.workOf j - if k = j then 1 else 0) : t.work = s.work - 1 := by
  simp only [State.work, h]
  cases k <;> simp <;> omega

theorem channelEnabled_iff {s : State} (h : s.Inv) (k : Chan) : s.channelEnabled k = true ↔ 0 < s.workOf k := by
  cases hp : s.ch.get k with
  | none => simp [State.channelEnabled, State.workOf, hp]
  | some p => simp [State.channelEnabled, State.workOf, hp, (h.indexBound k p hp).1]

theorem hostEnabled_of_host_nil {s : State} (h : s.host = []) : s.hostEnabled = false := by
  simp only [State.hostEnabled, h]

theorem not_channelEnabled_of_idle {s : State} {k : Chan} (h : s.ch.get k = none) : s.channelEnabled k = false := by
  simp only [State.channelEnabled, h]

/-- In a final state no agent has an enabled step. -/
theorem State.final.enabledAgents {s : State} (h : s.final) : s.enabledAgents = [] := by
  refine List.eq_nil_iff_forall_not_mem.2 fun a ha => ?_
  rcases (mem_enabledAgents s a).1 ha with ⟨-, hen⟩ | ⟨k, -, hen⟩
  · exact Bool.false_ne_true ((hostEnabled_of_host_nil h.1).symm.trans hen)
  · exact Bool.false_ne_true ((not_channelEnabled_of_idle (h.2 k)).symm.trans hen)

/-- Settles O36: no turn is listed, and no agent has an enabled step to choose. -/
theorem finalStateWaitsForTheHost : Obligations.FinalStateWaitsForTheHost := by
  intro s h hσ
  simp only [step, hσ, freeStep, h.enabledAgents]

/-- With no move of the host every step answers. -/
theorem step_answers_of_host_nil {s : State} (h : s.Inv) (hh : s.host = []) : ∃ t, step s = .next t := by
  cases hs : step s with
  | next t => exact ⟨t, rfl⟩
  | fault r => nomatch r
  | refused r =>
    obtain ⟨a, σ, d, ha⟩ := step_refused hs
    have turnTaken : State.Inv { s with schedule := σ, draws := d } := h.of_eq rfl rfl rfl
    obtain ⟨t, ht, -⟩ := act_of_host_nil turnTaken hh a
    cases ht.symm.trans ha

/-- A state whose passes are left to the free choice: the host has no move and no turn is listed. -/
structure LeftAlone (s : State) : Prop where
  inv : s.Inv
  host : s.host = []
  schedule : s.schedule = []

/-- Whichever channel the free choice takes, one step is taken off those left, until none is. -/
theorem LeftAlone.step {s : State} (h : LeftAlone s) : ∃ t, step s = .next t ∧ LeftAlone t ∧ t.work = s.work - 1 := by
  obtain ⟨t, hs⟩ := step_answers_of_host_nil h.inv h.host
  refine ⟨t, hs, ?_⟩
  rcases step_cases hs with ⟨rfl, -, hnone⟩ | ⟨a, σ, d, ha, ⟨hσ, -⟩ | ⟨-, rfl, hmem⟩⟩
  · have idle : t.work = 0 := by
      refine (work_eq_zero t).2 fun k => (workOf_eq_zero t k).1 (Nat.eq_zero_of_not_pos fun hk => ?_)
      have henabled := (mem_enabledAgents t _).2 (.inr ⟨k, rfl, (channelEnabled_iff h.inv k).2 hk⟩)
      rw [hnone] at henabled
      cases henabled
    exact ⟨h, by omega⟩
  · cases h.schedule.symm.trans hσ
  · have drawn : State.Inv { s with schedule := [], draws := d } := h.inv.of_eq rfl rfl rfl
    obtain ⟨u, hu, hinv, hhost, hsched, hwork⟩ := act_of_host_nil drawn h.host a
    cases hu.symm.trans ha
    rcases (mem_enabledAgents s a).1 hmem with ⟨-, hen⟩ | ⟨k, rfl, hen⟩
    · exact absurd hen (by simp [hostEnabled_of_host_nil h.host])
    · simp only [Agent.channel.injEq] at hwork
      exact ⟨⟨hinv, hhost, hsched⟩, work_of_workOf ((channelEnabled_iff h.inv k).1 hen) hwork⟩

theorem LeftAlone.run {s : State} (h : LeftAlone s) (m : Nat) :
    ∃ t, run m s = .next t ∧ LeftAlone t ∧ t.work = s.work - m := by
  induction m generalizing s with
  | zero => exact ⟨s, run_zero s, h, rfl⟩
  | succ m ih =>
    obtain ⟨t, hs, ht, hwork⟩ := h.step
    obtain ⟨u, hr, hu, hleft⟩ := ih ht
    exact ⟨u, (run_succ_next hs).trans hr, hu, by omega⟩

/-- Settles O47: every step takes one off the steps left, and with none left every channel is idle. -/
theorem everyPassCompletes : Obligations.EveryPassCompletes := by
  intro s h hh hσ
  have start : LeftAlone s := ⟨h, hh, hσ⟩
  refine ⟨?completes, fun m t hr => ?counted⟩
  case completes =>
    obtain ⟨t, hr, ht, hwork⟩ := start.run s.work
    exact ⟨t, hr, ⟨ht.host, (work_eq_zero t).1 (hwork.trans (Nat.sub_self _))⟩, ht.schedule⟩
  case counted =>
    obtain ⟨u, hu, -, hwork⟩ := start.run m
    cases hu.symm.trans hr
    exact hwork

end Sys2Proof.Machine
end

section
/-! The issue of a command and its contract (40_pass_common.md R100 to R105, R110, R111): the checks of R102 said of addresses,
what an accepted command changes, and how the host's turn comes to run a command. -/

namespace Sys2Proof.Machine

/-! ## The checks of R102 said of addresses -/

/-- A region lies in another exactly when each of its addresses does. -/
theorem Region.inside_iff_forall (r q : Region) : r.inside q = true ↔ ∀ a, r.has a = true → q.has a = true := by
  simp only [Region.inside_iff, Region.has_iff]
  constructor
  · intro h a ha
    omega
  · intro h
    by_cases hlen : r.len = 0
    · exact .inl hlen
    · have first := h r.base (by omega)
      have last := h (r.base + (r.len - 1)) (by omega)
      omega

/-- Check 2 (R102). -/
theorem covers_iff_granted (l : Lent) (S D : Region) : l.covers S D = true ↔ Granted l S D := by
  cases l with
  | exact => simp [Lent.covers, Granted]
  | buffers input output => simp only [Lent.covers, Granted, Bool.and_eq_true, Region.inside_iff_forall]

/-- Check 4 (R102). -/
theorem conflict_eq_false_iff_noConflict (s : State) (k : Chan) (S D : Region) :
    conflict s k S D = false ↔ NoConflict s k S D := by
  simp only [conflict_eq_false, NoConflict, apart_iff_overlaps_eq_false]

/-- The four checks pass exactly under the contract. -/
theorem issueRefusal_eq_none_iff_contract (s : State) (k : Chan) (o : Operands) :
    issueRefusal s k o = none ↔ Contract s k o := by
  rw [issueRefusal_eq_none, noWrap_iff, covers_iff_granted, ← apart_iff_overlaps_eq_false,
    conflict_eq_false_iff_noConflict]
  constructor
  · rintro ⟨⟨hS, hD⟩, hgranted, hapart, hconflict⟩
    exact ⟨hS, hD, hgranted, hapart, hconflict⟩
  · rintro ⟨hS, hD, hgranted, hapart, hconflict⟩
    exact ⟨⟨hS, hD⟩, hgranted, hapart, hconflict⟩

section
variable {s : State} {k : Chan} {o : Operands}

/-! The first check that fails names the refusal (R102, R195 (a)). -/

theorem issueRefusal_addressWrap (h1 : ¬ noWrap s.cfg (srcRegionOf k o) (dstRegionOf k o) = true) :
    issueRefusal s k o = some .addressWrap := by
  simp [issueRefusal, h1]

theorem issueRefusal_invalidBufferSize (h1 : noWrap s.cfg (srcRegionOf k o) (dstRegionOf k o) = true)
    (h2 : ¬ Granted s.lent (srcRegionOf k o) (dstRegionOf k o)) : issueRefusal s k o = some .invalidBufferSize := by
  rw [← covers_iff_granted] at h2
  simp [issueRefusal, h1, h2]

theorem issueRefusal_bufferOverlap (h1 : noWrap s.cfg (srcRegionOf k o) (dstRegionOf k o) = true)
    (h2 : Granted s.lent (srcRegionOf k o) (dstRegionOf k o)) (h3 : ¬ Apart (srcRegionOf k o) (dstRegionOf k o)) :
    issueRefusal s k o = some .bufferOverlap := by
  rw [← covers_iff_granted] at h2
  rw [apart_iff_overlaps_eq_false] at h3
  simp [issueRefusal, h1, h2, h3]

theorem issueRefusal_channelConflict (h1 : noWrap s.cfg (srcRegionOf k o) (dstRegionOf k o) = true)
    (h2 : Granted s.lent (srcRegionOf k o) (dstRegionOf k o)) (h3 : Apart (srcRegionOf k o) (dstRegionOf k o))
    (h4 : ¬ NoConflict s k (srcRegionOf k o) (dstRegionOf k o)) : issueRefusal s k o = some .channelConflict := by
  rw [← covers_iff_granted] at h2
  rw [apart_iff_overlaps_eq_false] at h3
  rw [← conflict_eq_false_iff_noConflict] at h4
  simp [issueRefusal, h1, h2, h3, h4]

end

/-- A region of no pixels holds no address. -/
theorem Region.not_has_of_len_eq_zero {r : Region} (h : r.len = 0) (a : Nat) : ¬ r.has a = true := by
  rw [Region.has_iff]
  omega

/-- With N = 0 the contract holds, whatever the addresses, the lent buffers and the passes in flight (R102, R105). -/
theorem contract_of_pixelCount_eq_zero {s : State} {k : Chan} {o : Operands} (hw : o.wf s.cfg = true)
    (hn : pixelCount o = 0) : Contract s k o := by
  obtain ⟨hsrc, hdst⟩ : o.src < s.cfg.space ∧ o.dst < s.cfg.space := by simpa [Operands.wf] using hw
  have noSrc := Region.not_has_of_len_eq_zero (r := srcRegionOf k o) (by rw [srcRegionOf_len, hn, Nat.zero_mul])
  have noDst := Region.not_has_of_len_eq_zero (r := dstRegionOf k o) (by rw [dstRegionOf_len, hn, Nat.zero_mul])
  refine ⟨?_, ?_, ?_, fun a h => noSrc a h.1, fun j q _ _ => ⟨?_, ?_, ?_⟩⟩
  · rw [hn, Nat.zero_mul]; exact hsrc.le
  · rw [hn, Nat.zero_mul]; exact hdst.le
  · cases s.lent with
    | exact => trivial
    | buffers input output => exact ⟨fun a h => absurd h (noSrc a), fun a h => absurd h (noDst a)⟩
  · exact fun a h => noDst a h.1
  · exact fun a h => noDst a h.1
  · exact fun a h => noSrc a h.1

/-! ## What exec answers -/

/-- The state after an accepted command on channel `k` (R103). -/
def accepted (k : Chan) (o : Operands) (s : State) : State := s.setCh k (some (newPass o))

/-- An idle channel accepts a command under the contract (R103). -/
theorem exec_accepted {i : Instr} {s : State} (hidle : s.ch.get (instrChan i) = none)
    (hc : Contract s (instrChan i) i.operands) : exec i s = .next (accepted (instrChan i) i.operands s) := by
  rw [exec_eq_issue]
  exact issue_accepted hidle ((issueRefusal_eq_none_iff_contract _ _ _).2 hc)

theorem exec_refused {i : Instr} {s : State} {r : Refusal} (hidle : s.ch.get (instrChan i) = none)
    (hc : issueRefusal s (instrChan i) i.operands = some r) : exec i s = .refused r := by
  rw [exec_eq_issue]
  exact issue_refused hidle hc

theorem exec_held {i : Instr} {s : State} (h : s.busy (instrChan i) = true) : exec i s = .next s := by
  rw [exec_eq_issue]
  exact issue_held h

/-- A command that answers a next state was held, or was accepted under the contract. -/
theorem exec_cases {i : Instr} {s t : State} (h : exec i s = .next t) :
    (s.busy (instrChan i) = true ∧ t = s) ∨
    (s.ch.get (instrChan i) = none ∧ Contract s (instrChan i) i.operands ∧ t = accepted (instrChan i) i.operands s) := by
  rw [exec_eq_issue] at h
  rcases issue_cases h with held | ⟨hidle, hc, ht⟩
  · exact .inl held
  · exact .inr ⟨hidle, (issueRefusal_eq_none_iff_contract _ _ _).1 hc, ht⟩

/-- A command for an idle channel that answers a next state was accepted. -/
theorem exec_cases_of_idle {i : Instr} {s t : State} (hidle : s.ch.get (instrChan i) = none) (h : exec i s = .next t) :
    Contract s (instrChan i) i.operands ∧ t = accepted (instrChan i) i.operands s := by
  rcases exec_cases h with ⟨hbusy, -⟩ | ⟨-, accepted⟩
  · exact absurd hbusy (by simp [State.busy, hidle])
  · exact accepted

/-- Settles O15: under the contract each of the five commands writes its channel's record, and a pass in flight is one whose
regions count as leased. -/
theorem commandsAreAcceptedUnderTheContract : Obligations.CommandsAreAcceptedUnderTheContract := by
  refine ⟨fun s k p hp => ⟨fun a ha => ?src, fun a ha => ?dst⟩, fun o s => ⟨?op1, ?op2, ?op3, ?op4, ?op5⟩⟩
  case src => exact (leasedSrc_eq_true s a).2 ⟨k, p, hp, ha⟩
  case dst => exact (leasedDst_eq_true s a).2 ⟨k, p, hp, ha⟩
  case op1 => exact exec_accepted (i := .rgba8ToRgb8 o)
  case op2 => exact exec_accepted (i := .rgba8ToRgb565 o)
  case op3 => exact exec_accepted (i := .rgba8ToRgba4 o)
  case op4 => exact exec_accepted (i := .rgba8ToLa88 o)
  case op5 => exact exec_accepted (i := .rgb565ToRgba5551 o)

/-- Settles O16: the first check that fails names the refusal, and with N = 0 none does. -/
theorem firstFailedCheckNamesTheRefusal : Obligations.FirstFailedCheckNamesTheRefusal := by
  intro i s hidle k o S D fits
  have wraps : noWrap s.cfg S D = true ↔ fits := noWrap_iff _ _ _
  refine ⟨fun h1 => ?wrap, fun h1 h2 => ?size, fun h1 h2 h3 => ?overlap, fun h1 h2 h3 h4 => ?conflict,
    ⟨fun hc => ?accept, fun ⟨t, ht⟩ => ?contract⟩, fun hw hn => contract_of_pixelCount_eq_zero hw hn⟩
  case wrap => exact exec_refused hidle (issueRefusal_addressWrap (wraps.not.2 h1))
  case size => exact exec_refused hidle (issueRefusal_invalidBufferSize (wraps.2 h1) h2)
  case overlap => exact exec_refused hidle (issueRefusal_bufferOverlap (wraps.2 h1) h2 h3)
  case conflict => exact exec_refused hidle (issueRefusal_channelConflict (wraps.2 h1) h2 h3 h4)
  case accept => exact ⟨_, exec_accepted hidle hc⟩
  case contract => exact (exec_cases_of_idle hidle ht).1

/-- Settles O18: a command that answers left the state as it is or wrote its own channel's record. -/
theorem issueChangesOnlyItsChannelRecord : Obligations.IssueChangesOnlyItsChannelRecord := by
  intro i s t hs
  rcases exec_cases hs with ⟨-, rfl⟩ | ⟨-, -, rfl⟩
  · exact ⟨fun _ => rfl, rfl, fun _ _ => rfl, rfl, rfl, rfl, rfl, rfl, rfl⟩
  · exact ⟨fun _ => rfl, rfl, fun j hj => Channels.get_set_other _ _ hj, rfl, rfl, rfl, rfl, rfl, rfl⟩

/-- Settles O20: with N = 0 the contract holds, and the new pass is at its count. -/
theorem zeroSizeCommandTouchesNothing : Obligations.ZeroSizeCommandTouchesNothing := by
  intro i s hidle hw hn
  have noPixel : newPass i.operands = ⟨i.operands.src, i.operands.dst, 0, 0⟩ := by simp only [newPass, pixelCount, hn]
  refine ⟨?accepted, ?retired⟩
  case accepted =>
    rw [exec_accepted hidle (contract_of_pixelCount_eq_zero hw hn), accepted, noPixel]
  case retired =>
    rw [channelStep_retire (Channels.get_set_same _ _ _) rfl]
    simp only [retire, State.tell, State.setCh, Channels.set_set, Channels.set_eq_self hidle]

/-- Settles O43: the new pass has index 0, so no pixel is to be converted yet, and the issue reads and writes no memory. -/
theorem issueStartsThePass : Obligations.IssueStartsThePass := by
  intro i s t hidle hs
  obtain ⟨-, rfl⟩ := exec_cases_of_idle hidle hs
  exact ⟨⟨0, Channels.get_set_same _ _ _, fun j hj => absurd hj j.not_lt_zero⟩, fun _ _ _ => rfl⟩

/-! ## The host's turn -/

theorem hostIssue_held {bits : Nat} {s : State} {i : Instr} (hd : decodeBits s.cfg bits = .cmd i)
    (hbusy : s.busy (instrChan i) = true) (lent : Lent) (rest : List HostMove) : hostIssue bits lent rest s = .next s := by
  simp only [hostIssue, hd, hbusy, if_true]

theorem hostIssue_exec {bits : Nat} {s : State} {i : Instr} (hd : decodeBits s.cfg bits = .cmd i)
    (hidle : s.ch.get (instrChan i) = none) (lent : Lent) (rest : List HostMove) :
    hostIssue bits lent rest s = exec i (s.present lent rest) := by
  simp only [hostIssue, hd, (State.busy_eq_false s _).2 hidle, Bool.false_eq_true, if_false]

/-- Settles O17: the issue of a command for a busy channel answers the state it was given. -/
theorem commandForABusyChannelIsHeld : Obligations.CommandForABusyChannelIsHeld := by
  refine ⟨fun i s hbusy => exec_held hbusy, fun s bits lent rest i σ hturn hmove hd hbusy => ?_⟩
  rw [step_host_issue hturn hmove]
  exact hostIssue_held (s := { s with schedule := σ }) hd hbusy lent rest

/-- A host with a command for an idle channel is enabled. -/
theorem hostEnabled_of_issue {s : State} {bits : Nat} {lent : Lent} {rest : List HostMove} {i : Instr}
    (hmove : s.host = .issue bits lent :: rest) (hd : decodeBits s.cfg bits = .cmd i)
    (hidle : s.ch.get (instrChan i) = none) : s.hostEnabled = true := by
  simp only [State.hostEnabled, hmove, hd, (State.busy_eq_false s _).2 hidle, Bool.not_false]

/-- With no channel enabled the enabled host is the only agent with a step. -/
theorem enabledAgents_host {s : State} (hhost : s.hostEnabled = true) (hch : ∀ k, s.channelEnabled k = false) :
    s.enabledAgents = [.host] := by
  have noChannel : Chan.all.filter s.channelEnabled = [] := List.filter_eq_nil_iff.2 fun k _ => by simp [hch k]
  simp only [State.enabledAgents, hhost, noChannel, if_true, List.map_nil, List.append_nil]

/-- With no turn listed, a host that alone has a step presents its descriptor. -/
theorem step_host_issue_alone {s : State} {bits : Nat} {lent : Lent} {rest : List HostMove} (hσ : s.schedule = [])
    (hmove : s.host = .issue bits lent :: rest) (halone : s.enabledAgents = [.host]) :
    step s = hostIssue bits lent rest s := by
  simp only [step, hσ, freeStep, halone, act, hostStep, hmove]

/-- Settles O27: the host presents the command at its turn, and where it alone has a step the turn is its own. -/
theorem stepRunsTheDecodedCommand : Obligations.StepRunsTheDecodedCommand := by
  intro s bits lent rest i hmove hd hidle
  refine ⟨fun σ hturn => ?scheduled, fun hσ hch => ?alone⟩
  case scheduled =>
    rw [step_host_issue hturn hmove]
    exact hostIssue_exec (s := { s with schedule := σ }) hd hidle lent rest
  case alone =>
    rw [step_host_issue_alone hσ hmove (enabledAgents_host (hostEnabled_of_issue hmove hd hidle) hch)]
    exact hostIssue_exec hd hidle lent rest

/-- Settles O28: the host's turn and the issue of the word stand in front. -/
theorem fetchedWordIsRunNext : Obligations.FetchedWordIsRunNext := by
  intro s nbits w i hd hidle
  rw [step_host_issue (s := s.withFetchWord nbits w) rfl rfl]
  exact hostIssue_exec (s := { s.withFetchWord nbits w with schedule := s.schedule }) hd hidle .exact s.host

theorem hostStep_wait {s : State} {k : Chan} {rest : List HostMove} (h : s.host = .wait k :: rest) :
    hostStep s = if s.busy k then .next s else .next { s with host := rest } := by
  simp only [hostStep, h]

/-- Settles O30: a wait looks at the busy bit of its channel. -/
theorem waitPassesWhenTheChannelIsIdle : Obligations.WaitPassesWhenTheChannelIsIdle := by
  intro s k rest hmove
  refine ⟨fun hidle => ?idle, fun p hp => ?busy⟩
  case idle => rw [hostStep_wait hmove, (State.busy_eq_false s k).2 hidle, if_neg Bool.false_ne_true]
  case busy => rw [hostStep_wait hmove, (State.busy_eq_true s k).2 ⟨p, hp⟩, if_pos rfl]

end Sys2Proof.Machine
end

section
/-! A whole pass of one channel, from its issue to `done` (40_pass_common.md R103, R104, R109, R119), and the same command run
again (R118, 20_memory.md R50). -/

namespace Sys2Proof.Machine

/-! ## Several pixel steps in a row -/

/-- Memory after `r` pixel steps of a pass in a row. -/
def convertPixels (c : Config) (k : Chan) : Nat → Pass → Memory → Memory
  | 0, _, m => m
  | r + 1, p, m => convertPixels c k r p.advance (convertPixel c k p m)

theorem convertPixels_succ (c : Config) (k : Chan) (r : Nat) (p : Pass) (m : Memory) :
    convertPixels c k (r + 1) p m = convertPixels c k r p.advance (convertPixel c k p m) := rfl

theorem convertPixels_wf {m : Memory} (h : m.wf = true) (c : Config) (k : Chan) (r : Nat) (p : Pass) :
    (convertPixels c k r p m).wf = true := by
  induction r generalizing p m with
  | zero => exact h
  | succ r ih => exact ih (convertPixel_wf h c k p) p.advance

/-- Pixel steps write pending bytes of their own pass alone (R104). -/
theorem convertPixels_read_of_not_pending {m : Memory} (h : m.wf = true) (c : Config) {k : Chan} {r : Nat} {p : Pass}
    (hr : p.idx + r ≤ p.n) {a : Nat} (ha : ¬ p.Pending k a) : (convertPixels c k r p m).read a = m.read a := by
  induction r generalizing p m with
  | zero => rfl
  | succ r ih =>
    have hr' : p.advance.idx + r ≤ p.advance.n := by rw [Pass.advance_idx, Pass.advance_n]; omega
    have ha' : ¬ p.advance.Pending k a := fun hpend => ha (Pass.pending_advance.1 hpend).1
    rw [convertPixels_succ, ih (convertPixel_wf h c k p) hr' ha', convertPixel_read_of_not_pending h c (by omega) ha]

/-- No pending byte of a pass lies in its source region (R34 (b)). -/
theorem Pass.not_pending_of_src {p : Pass} {k : Chan} (hown : (p.srcRegion k).overlaps (p.dstRegion k) = false) {a : Nat}
    (ha : (p.srcRegion k).has a = true) : ¬ p.Pending k a := fun hpend =>
  Bool.false_ne_true (((Region.not_overlaps_iff _ _).1 hown a ha).symm.trans hpend.dstRegion_has)

/-- Each of the pixel steps converts its pixel: the steps before leave the source region alone, and the steps after leave the
pixel alone. -/
theorem pixelConverted_convertPixels {m : Memory} (h : m.wf = true) (c : Config) {k : Chan} {r : Nat} {p : Pass}
    (hown : (p.srcRegion k).overlaps (p.dstRegion k) = false) (hr : p.idx + r ≤ p.n) {i : Nat} (hlo : p.idx ≤ i)
    (hhi : i < p.idx + r) : pixelConverted c k p.src p.dst i m (convertPixels c k r p m) := by
  induction r generalizing p m with
  | zero => omega
  | succ r ih =>
    have hi : p.idx < p.n := by omega
    have hwf := convertPixel_wf h c k p
    have hr' : p.advance.idx + r ≤ p.advance.n := by rw [Pass.advance_idx, Pass.advance_n]; omega
    rw [convertPixels_succ]
    rcases hlo.eq_or_lt with rfl | hlt
    · refine (pixelConverted_congr (fun _ _ _ => rfl) fun a _ hend => ?_).2 (pixelConverted_convertPixel h c k p)
      exact convertPixels_read_of_not_pending hwf c hr' fun hpend => Nat.not_le.2 hend (Pass.pending_advance.1 hpend).2
    · have later := ih hwf (p := p.advance) hown hr' hlt (by rw [Pass.advance_idx]; omega)
      refine (pixelConverted_congr (fun a hstart hend => ?_) fun _ _ _ => rfl).1 later
      have hsrc := Pass.srcRegion_has_pixel (by omega) hstart hend
      exact convertPixel_read_of_not_pending h c hi (Pass.not_pending_of_src hown hsrc)

/-- Converting the same pixels again changes nothing: their source bytes are as they were. -/
theorem convertPixels_idem {m : Memory} (h : m.wf = true) (c : Config) {k : Chan} {r : Nat} {p : Pass}
    (hown : (p.srcRegion k).overlaps (p.dstRegion k) = false) (hr : p.idx + r = p.n) :
    convertPixels c k r p (convertPixels c k r p m) = convertPixels c k r p m := by
  have hwf := convertPixels_wf h c k r p
  refine Memory.ext_read (convertPixels_wf hwf c k r p) hwf fun a => ?_
  by_cases hpend : p.Pending k a
  case neg => exact convertPixels_read_of_not_pending hwf c hr.le hpend
  case pos =>
    obtain ⟨i, j, hlo, hhi, hj, rfl⟩ := hpend.exists_pixel
    have first := pixelConverted_convertPixels h c hown hr.le hlo (by omega)
    have second := pixelConverted_convertPixels hwf c hown hr.le hlo (by omega)
    have secondFromFirst : pixelConverted c k p.src p.dst i m (convertPixels c k r p (convertPixels c k r p m)) := by
      refine (pixelConverted_congr (fun b hstart hend => ?_) fun _ _ _ => rfl).1 second
      have hsrc := Pass.srcRegion_has_pixel hhi hstart hend
      exact convertPixels_read_of_not_pending h c hr.le (Pass.not_pending_of_src hown hsrc)
    rw [pixelConverted_byte secondFromFirst hj, pixelConverted_byte first hj]

/-! ## The turns of a pass -/

/-- A run goes on from where its first steps end. -/
theorem run_add {m : Nat} {s t : State} (h : run m s = .next t) (n : Nat) : run (m + n) s = run n t := by
  induction m generalizing s with
  | zero =>
    cases h
    rw [Nat.zero_add]
  | succ m ih =>
    obtain ⟨u, hs, hr⟩ := run_succ_cases h
    rw [Nat.add_right_comm, run_succ_next hs, ih hr]

/-- The state after `r` pixel steps of pass `p` on channel `k` in a row: only the index and memory have moved. -/
def afterPixels (k : Chan) (r : Nat) (p : Pass) (s : State) : State :=
  { s.setCh k (some { p with idx := p.idx + r }) with mem := convertPixels s.cfg k r p s.mem }

theorem afterPixels_zero {k : Chan} {p : Pass} {s : State} (hp : s.ch.get k = some p) : afterPixels k 0 p s = s := by
  simp only [afterPixels, State.setCh, Nat.add_zero, Channels.set_eq_self hp, convertPixels]

theorem afterPixels_succ (k : Chan) (r : Nat) (p : Pass) (s : State) :
    afterPixels k (r + 1) p s = afterPixels k r p.advance (afterPixel k p s) := by
  simp only [afterPixels, afterPixel, State.setCh, Channels.set_set, Pass.advance, convertPixels_succ, Nat.add_right_comm,
    Nat.add_assoc]

/-- The first turn listed is taken first. -/
theorem run_turn {a : Agent} {s t : State} {σ : List Agent} (hs : act a { s with schedule := σ } = .next t) (m : Nat) :
    run (m + 1) { s with schedule := a :: σ } = run m t :=
  run_succ_next ((step_of_schedule rfl).trans hs)

section
variable {k : Chan} {p : Pass} {s : State}

/-- `r` turns of a channel with as many pixels left are `r` pixel steps (R104, R119). -/
theorem run_pixelTurns (hp : s.ch.get k = some p) (hsrc : p.src + p.n * k.srcBytes ≤ s.cfg.space)
    (hdst : p.dst + p.n * k.dstBytes ≤ s.cfg.space) {r : Nat} (hr : p.idx + r ≤ p.n) (σ : List Agent) :
    run r { s with schedule := List.replicate r (.channel k) ++ σ } = .next { afterPixels k r p s with schedule := σ } := by
  induction r generalizing p s with
  | zero => rw [afterPixels_zero hp]; rfl
  | succ r ih =>
    have hr' : p.advance.idx + r ≤ p.advance.n := by rw [Pass.advance_idx, Pass.advance_n]; omega
    have hs : act (.channel k) { s with schedule := List.replicate r (.channel k) ++ σ } = .next _ :=
      channelStep_eq_afterPixel hp (by omega) hsrc hdst
    rw [List.replicate_succ, List.cons_append, run_turn hs, afterPixels_succ]
    exact ih (s := afterPixel k p s) (Channels.get_set_same _ _ _) hsrc hdst hr'

/-- One turn more than pixels left finishes the pass (R109, R119). -/
theorem run_pass (hp : s.ch.get k = some p) (hsrc : p.src + p.n * k.srcBytes ≤ s.cfg.space)
    (hdst : p.dst + p.n * k.dstBytes ≤ s.cfg.space) {r : Nat} (hr : p.idx + r = p.n) (σ : List Agent) :
    run (r + 1) { s with schedule := List.replicate (r + 1) (.channel k) ++ σ } = .next { s with
      schedule := σ
      ch := s.ch.set k none
      mem := convertPixels s.cfg k r p s.mem
      seen := .done k :: s.seen } := by
  have pixels := run_pixelTurns hp hsrc hdst hr.le (.channel k :: σ)
  have retires : act (.channel k) { afterPixels k r p s with schedule := σ } = .next _ :=
    channelStep_retire (p := { p with idx := p.idx + r }) (Channels.get_set_same _ _ _) hr
  rw [List.replicate_succ', List.append_assoc, List.singleton_append, run_add pixels, ← Nat.zero_add 1, run_turn retires,
    run_zero]
  simp only [afterPixels, retire, State.tell, State.setCh, Channels.set_set]

end

/-- Settles O49: the turns are pixel steps while pixels are left, and then the retire step. -/
theorem passTakesExactlyItsSteps : Obligations.PassTakesExactlyItsSteps := by
  intro k p s σ h hp
  obtain ⟨hsrc, hdst⟩ := h.regionSpace k p hp
  have hidx := (h.indexBound k p hp).1
  refine ⟨fun m hm => ?pixels, ?done⟩
  case pixels => exact ⟨_, run_pixelTurns hp hsrc hdst (by omega) σ, Channels.get_set_same _ _ _, rfl, rfl⟩
  case done => exact ⟨_, run_pass hp hsrc hdst (by omega) σ, Channels.get_set_same _ _ _, rfl, rfl⟩

/-! ## A command and its pass -/

/-- The state at `done`, where the command found its channel idle in `s` and its channel took every turn up to then. -/
def afterCommand (i : Instr) (s : State) (σ : List Agent) : State :=
  { s with
    schedule := σ
    mem := convertPixels s.cfg (instrChan i) (pixelCount i.operands) (newPass i.operands) s.mem
    seen := .done (instrChan i) :: s.seen }

section
variable {i : Instr} {s : State}

/-- The pass of an accepted command takes one turn per pixel and one to retire, and leaves its channel idle as it found it. -/
theorem run_accepted (hidle : s.ch.get (instrChan i) = none) (hc : Contract s (instrChan i) i.operands)
    (σ : List Agent) :
    run (pixelCount i.operands + 1) { accepted (instrChan i) i.operands s with
      schedule := List.replicate (pixelCount i.operands + 1) (.channel (instrChan i)) ++ σ } =
    .next (afterCommand i s σ) := by
  refine (run_pass (s := accepted (instrChan i) i.operands s) (Channels.get_set_same _ _ _) hc.srcFits hc.dstFits
    (Nat.zero_add _) σ).trans ?_
  simp only [accepted, State.setCh, Channels.set_set, Channels.set_eq_self hidle, afterCommand, newPass_n]

/-- The contract speaks of nothing that a command's own pass leaves changed. -/
theorem Contract.afterCommand {k : Chan} {o : Operands} (hc : Contract s k o) (σ : List Agent) :
    Contract (afterCommand i s σ) k o :=
  ⟨hc.srcFits, hc.dstFits, hc.granted, hc.apart, hc.noConflict⟩

/-- A second pass of the command converts the same pixels from the same source bytes (R118). -/
theorem afterCommand_mem_again (h : s.mem.wf = true) (hc : Contract s (instrChan i) i.operands) (σ τ : List Agent) :
    (afterCommand i (afterCommand i s σ) τ).mem = (afterCommand i s σ).mem :=
  convertPixels_idem h s.cfg ((apart_iff_overlaps_eq_false _ _).1 hc.apart) (Nat.zero_add _)

end

/-- Settles O56: at `done` the channel is idle and the contract holds as before, and the second pass converts the same pixels. -/
theorem repeatingACommandWritesTheSameBytes : Obligations.RepeatingACommandWritesTheSameBytes := by
  intro i s σ hwf hidle hc k N
  have hidleAgain : (afterCommand i s σ).ch.get k = none := hidle
  have hcAgain : Contract (afterCommand i s σ) k i.operands := hc.afterCommand σ
  exact ⟨_, afterCommand i s σ, _, afterCommand i (afterCommand i s σ) σ, exec_accepted hidle hc,
    run_accepted hidle hc σ, exec_accepted hidleAgain hcAgain, run_accepted hidleAgain hcAgain σ,
    afterCommand_mem_again hwf hc σ σ, rfl, rfl⟩

end Sys2Proof.Machine
end

section
/-! What stages 1, 2 and 3 keep of a pixel (41_rgba8_to_rgb8.md R130, R133, 42_rgba8_to_rgb565.md R144, 43_rgba8_to_rgba4.md
R154): the colour bytes, the top bits of each colour, the high nibbles. -/

namespace Sys2Proof.Machine

/-! ## Stage 1 keeps bytes -/

theorem stage1_toNat (p : U32) : (stage1 p).toNat = p.toNat % 2 ^ 24 := BitVec.extractLsb'_toNat 0 24 p

/-- Byte `j` of the destination pixel is byte `j` of the source pixel (R130). -/
theorem stage1_byte (p : U32) {j : Nat} (hj : j < 3) : (stage1 p).extractLsb' (8 * j) 8 = p.extractLsb' (8 * j) 8 := by
  rw [stage1, BitVec.extractLsb'_extractLsb'_of_le (by omega)]

/-- Settles O6: stage 1 is the low 24 bits of the pixel, and so keeps each byte in them. -/
theorem stage1KeepsTheColourBytes : Obligations.Stage1KeepsTheColourBytes := fun p =>
  ⟨stage1_toNat p, stage1_byte p (j := 0) (by decide), stage1_byte p (j := 1) (by decide), stage1_byte p (j := 2) (by decide)⟩

/-! ## The bits a stage drops -/

theorem red_and (p q : U32) : red (p &&& q) = red p &&& red q := BitVec.extractLsb'_and

theorem green_and (p q : U32) : green (p &&& q) = green p &&& green q := BitVec.extractLsb'_and

theorem blue_and (p q : U32) : blue (p &&& q) = blue p &&& blue q := BitVec.extractLsb'_and

theorem alpha_and (p q : U32) : alpha (p &&& q) = alpha p &&& alpha q := BitVec.extractLsb'_and

/-- Narrowing to `w` bits looks at the top `w` bits alone (R78). -/
theorem narrow_and_topBits (w : Nat) (c : U8) : narrow w (c &&& (BitVec.allOnes 8 <<< (8 - w))) = narrow w c := by
  refine BitVec.eq_of_getLsbD_eq fun i _ => ?_
  simp only [narrow, BitVec.getLsbD_setWidth, BitVec.getLsbD_ushiftRight, BitVec.getLsbD_and, BitVec.getLsbD_shiftLeft,
    BitVec.getLsbD_allOnes]
  by_cases hi : 8 - w + i < 8
  case pos =>
    have hi8 : i < 8 := by omega
    simp [hi, hi8]
  case neg => simp [BitVec.getLsbD_of_ge c _ (Nat.not_lt.1 hi)]

/-- Stage 2 looks at the top bits of each colour alone: five of red and of blue, six of green (R144). -/
theorem stage2_and_keptBits (p : U32) : stage2 (p &&& 0x00F8FCF8#32) = stage2 p := by
  have hred : narrow 5 (red (p &&& 0x00F8FCF8#32)) = narrow 5 (red p) := red_and p _ ▸ narrow_and_topBits 5 (red p)
  have hgreen : narrow 6 (green (p &&& 0x00F8FCF8#32)) = narrow 6 (green p) :=
    green_and p _ ▸ narrow_and_topBits 6 (green p)
  have hblue : narrow 5 (blue (p &&& 0x00F8FCF8#32)) = narrow 5 (blue p) := blue_and p _ ▸ narrow_and_topBits 5 (blue p)
  rw [stage2, hred, hgreen, hblue, stage2]

/-- Stage 3 looks at the high nibble of each channel alone (R154). -/
theorem stage3_and_highNibbles (p : U32) : stage3 (p &&& 0xF0F0F0F0#32) = stage3 p := by
  have hred : narrow 4 (red (p &&& 0xF0F0F0F0#32)) = narrow 4 (red p) := red_and p _ ▸ narrow_and_topBits 4 (red p)
  have hgreen : narrow 4 (green (p &&& 0xF0F0F0F0#32)) = narrow 4 (green p) :=
    green_and p _ ▸ narrow_and_topBits 4 (green p)
  have hblue : narrow 4 (blue (p &&& 0xF0F0F0F0#32)) = narrow 4 (blue p) := blue_and p _ ▸ narrow_and_topBits 4 (blue p)
  have halpha : narrow 4 (alpha (p &&& 0xF0F0F0F0#32)) = narrow 4 (alpha p) :=
    alpha_and p _ ▸ narrow_and_topBits 4 (alpha p)
  rw [stage3, hred, hgreen, hblue, halpha, stage3]

/-- Settles O13: each stage is a function of the bits it keeps. -/
theorem droppedBitsInfluenceNothing : Obligations.DroppedBitsInfluenceNothing := by
  refine ⟨fun p q h => h, fun p q h => ?stage2, fun p q h => ?stage3⟩
  case stage2 => rw [← stage2_and_keptBits p, h, stage2_and_keptBits]
  case stage3 => rw [← stage3_and_highNibbles p, h, stage3_and_highNibbles]

end Sys2Proof.Machine
end

section
/-! What a whole pass leaves in memory (40_pass_common.md R104, R109), and the pass of operation 1 (41_rgba8_to_rgb8.md R131,
R132). -/

namespace Sys2Proof.Machine

/-! ## Memory at `done` -/

section
variable {i : Instr} {s : State}

theorem afterCommand_mem_wf (h : s.mem.wf = true) (σ : List Agent) : (afterCommand i s σ).mem.wf = true :=
  convertPixels_wf h s.cfg _ _ _

/-- Byte `j` of destination pixel `n` is byte `j` of the stage of source pixel `n` of memory at issue (R43, R104). -/
theorem afterCommand_read_pixel (h : s.mem.wf = true) (hc : Contract s (instrChan i) i.operands) (σ : List Agent) {n j : Nat}
    (hn : n < pixelCount i.operands) (hj : j < (instrChan i).dstBytes) :
    (afterCommand i s σ).mem.read (i.operands.dst + n * (instrChan i).dstBytes + j) =
      (stage s.cfg (instrChan i) (memRead s.mem (i.operands.src + n * (instrChan i).srcBytes)
        (instrChan i).srcBytes)).extractLsb' (8 * j) 8 := by
  have hown := (apart_iff_overlaps_eq_false _ _).1 hc.apart
  have converted := pixelConverted_convertPixels (p := newPass i.operands) h s.cfg hown (Nat.zero_add _).le n.zero_le
    (hn.trans_eq (Nat.zero_add _).symm)
  exact pixelConverted_byte converted hj

/-- A pass changes no byte outside its destination region (R41). -/
theorem afterCommand_read_outside (h : s.mem.wf = true) (σ : List Agent) {a : Nat}
    (ha : a < i.operands.dst ∨ i.operands.dst + pixelCount i.operands * (instrChan i).dstBytes ≤ a) :
    (afterCommand i s σ).mem.read a = s.mem.read a := by
  refine convertPixels_read_of_not_pending h s.cfg (p := newPass i.operands) (Nat.zero_add _).le fun hpend => ?_
  obtain ⟨hlo, hhi⟩ := (Pass.dstRegion_has _ _ _).1 hpend.dstRegion_has
  rw [newPass_dst] at hlo hhi
  rw [newPass_n] at hhi
  omega

end

/-! ## Operation 1 -/

/-- Byte `r` of destination pixel `n` of operation 1 is byte `r` of source pixel `n` (R132). -/
theorem afterRgba8ToRgb8_read {o : Operands} {s : State} (h : s.mem.wf = true) (hc : Contract s .ch1 o) (σ : List Agent)
    {n r : Nat} (hn : n < pixelCount o) (hr : r < 3) :
    (afterCommand (.rgba8ToRgb8 o) s σ).mem.read (o.dst + 3 * n + r) = s.mem.read (o.src + 4 * n + r) :=
  calc (afterCommand (.rgba8ToRgb8 o) s σ).mem.read (o.dst + 3 * n + r)
    _ = (afterCommand (.rgba8ToRgb8 o) s σ).mem.read (o.dst + n * 3 + r) := by rw [Nat.mul_comm]
    _ = (stage1 (memRead s.mem (o.src + n * 4) 4)).extractLsb' (8 * r) 8 :=
      afterCommand_read_pixel (i := .rgba8ToRgb8 o) h hc σ hn hr
    _ = (memRead s.mem (o.src + n * 4) 4).extractLsb' (8 * r) 8 := stage1_byte _ hr
    _ = s.mem.read (o.src + n * 4 + r) := memRead_byte _ _ _ _ (by omega)
    _ = s.mem.read (o.src + 4 * n + r) := by rw [Nat.mul_comm]

/-- Settles O51: the pass of an accepted command, read at each byte of the destination region and at the bytes outside it. -/
theorem passOfRgba8ToRgb8 : Obligations.PassOfRgba8ToRgb8 := by
  intro o s σ hwf hidle hc N
  refine ⟨_, afterCommand (.rgba8ToRgb8 o) s σ, exec_accepted hidle hc, run_accepted (i := .rgba8ToRgb8 o) hidle hc σ, rfl,
    afterCommand_mem_wf hwf σ, fun i hi => ?pixel, fun j hj => ?byte, fun a ha => ?outside⟩
  case pixel =>
    have copied {r : Nat} (hr : r < 3) := afterRgba8ToRgb8_read hwf hc σ hi hr
    exact ⟨copied (r := 0) (by decide), copied (r := 1) (by decide), copied (r := 2) (by decide)⟩
  case byte =>
    have copied := afterRgba8ToRgb8_read hwf hc σ (n := j / 3) (Nat.div_lt_of_lt_mul hj) (Nat.mod_lt j (by decide))
    rwa [Nat.add_assoc, Nat.div_add_mod, Nat.add_assoc] at copied
  case outside => exact afterCommand_read_outside hwf σ (ha.imp_right (N.mul_comm 3 ▸ ·))

end Sys2Proof.Machine
end

section
/-! Operation 2 (42_rgba8_to_rgb565.md): the packed pixel of R140 in its bit, sum and mask forms (R143), and the bytes its whole
pass leaves in memory (R141, R142). -/

namespace Sys2Proof.Machine

/-! ## The bits of a packed pixel -/

/-- Narrowing to `w` bits moves the top `w` bits down (R78). -/
theorem narrow_getLsbD (w : Nat) (c : U8) (i : Nat) : (narrow w c).getLsbD i = c.getLsbD (8 - w + i) := by
  rw [narrow, BitVec.getLsbD_setWidth, BitVec.getLsbD_ushiftRight]
  by_cases hi : i < 16
  case pos => rw [decide_eq_true hi, Bool.true_and]
  case neg => rw [decide_eq_false hi, Bool.false_and, BitVec.getLsbD_of_ge c _ (by omega)]

/-- Stage 2, bit by bit: five bits of blue, six of green, five of red, from the lowest up (R140). -/
theorem stage2_getLsbD (p : U32) (i : Nat) : (stage2 p).getLsbD i =
    if i < 5 then (blue p).getLsbD (3 + i)
    else if i < 11 then (green p).getLsbD (i - 3)
    else (red p).getLsbD (i - 8) := by
  simp only [stage2, BitVec.getLsbD_or, BitVec.getLsbD_shiftLeft, narrow_getLsbD]
  split
  case isTrue hblue => simp [hblue, show i < 11 by omega]
  case isFalse hblue =>
    have noBlue : (blue p).getLsbD (3 + i) = false := BitVec.getLsbD_of_ge _ _ (by omega)
    split
    case isTrue hgreen => simp [noBlue, hblue, hgreen, show i < 16 by omega, show 2 + (i - 5) = i - 3 by omega]
    case isFalse hgreen =>
      have noGreen : (green p).getLsbD (2 + (i - 5)) = false := BitVec.getLsbD_of_ge _ _ (by omega)
      by_cases hi : i < 16
      case pos => simp [noBlue, noGreen, hgreen, hi, show 3 + (i - 11) = i - 8 by omega]
      case neg => simp [noBlue, hi, BitVec.getLsbD_of_ge (red p) (i - 8) (by omega)]

/-- A field that lies inside a field is a field of the whole. -/
theorem extractLsb'_extractLsb'_inside {w : Nat} (x : BitVec w) {lo len start n : Nat} (h : start + n ≤ len) :
    (x.extractLsb' lo len).extractLsb' start n = x.extractLsb' (lo + start) n := by
  refine BitVec.eq_of_getLsbD_eq fun i hi => ?_
  simp [hi, show start + i < len by omega, Nat.add_assoc]

theorem stage2_redField (p : U32) : (stage2 p).extractLsb' 11 5 = (red p).extractLsb' 3 5 := by
  refine BitVec.eq_of_getLsbD_eq fun i hi => ?_
  simp [stage2_getLsbD, hi, show ¬ 11 + i < 5 by omega, show 11 + i - 8 = 3 + i by omega]

theorem stage2_greenField (p : U32) : (stage2 p).extractLsb' 5 6 = (green p).extractLsb' 2 6 := by
  refine BitVec.eq_of_getLsbD_eq fun i hi => ?_
  simp [stage2_getLsbD, hi, show 5 + i < 11 by omega, show 5 + i - 3 = 2 + i by omega]

theorem stage2_blueField (p : U32) : (stage2 p).extractLsb' 0 5 = (blue p).extractLsb' 3 5 := by
  refine BitVec.eq_of_getLsbD_eq fun i hi => ?_
  simp [stage2_getLsbD, hi]

/-- The three fields do not overlap, so the pixel is their sum. -/
theorem stage2_toNat (p : U32) : (stage2 p).toNat =
    (red p).toNat / 8 * 2048 + (green p).toNat / 4 * 32 + (blue p).toNat / 8 := by
  have hred := congrArg BitVec.toNat (stage2_redField p)
  have hgreen := congrArg BitVec.toNat (stage2_greenField p)
  have hblue := congrArg BitVec.toNat (stage2_blueField p)
  simp only [BitVec.extractLsb'_toNat, Nat.shiftRight_eq_div_pow] at hred hgreen hblue
  omega

/-! ## The mask form -/

/-- A mask of `len` ones from bit `lo` up keeps the bits of that field. -/
theorem getLsbD_and_fieldMask {w : Nat} (x : BitVec w) (lo len i : Nat) :
    (x &&& ((BitVec.allOnes len).setWidth w <<< lo)).getLsbD i = (x.getLsbD i && decide (lo ≤ i ∧ i < lo + len)) := by
  by_cases hi : i < w
  case pos =>
    have inField : (!decide (i < lo) && decide (i - lo < len)) = decide (lo ≤ i ∧ i < lo + len) := by
      rw [← decide_not, ← Bool.decide_and, decide_eq_decide]
      omega
    rw [BitVec.getLsbD_and, ← inField]
    simp [hi]
  case neg => simp [BitVec.getLsbD_of_ge x i (by omega)]

/-- The word R143 computes with three masks on the 32-bit pixel. -/
def stage2MaskForm (p : U32) : U32 :=
  ((p &&& 0x000000F8#32) <<< 8) ||| ((p &&& 0x0000FC00#32) >>> 5) ||| ((p >>> 19) &&& 0x1F#32)

/-- The mask form is stage 2 with no bit above it (R143): at each bit the term of the field it lies in gives it, and the masks make
the other terms 0 there. -/
theorem stage2MaskForm_eq (p : U32) : stage2MaskForm p = (stage2 p).setWidth 32 := by
  refine BitVec.eq_of_getLsbD_eq fun i hi => ?_
  have redMask (j : Nat) : (p &&& 0x000000F8#32).getLsbD j = _ := getLsbD_and_fieldMask p 3 5 j
  have greenMask (j : Nat) : (p &&& 0x0000FC00#32).getLsbD j = _ := getLsbD_and_fieldMask p 10 6 j
  have blueMask (j : Nat) : ((p >>> 19) &&& 0x1F#32).getLsbD j = _ := getLsbD_and_fieldMask (p >>> 19) 0 5 j
  simp only [stage2MaskForm, BitVec.getLsbD_or, BitVec.getLsbD_shiftLeft, BitVec.getLsbD_ushiftRight, BitVec.getLsbD_setWidth,
    redMask, greenMask, blueMask, stage2_getLsbD, red, green, blue, BitVec.getLsbD_extractLsb']
  split
  case isTrue hblue => grind
  case isFalse hblue =>
    split
    case isTrue hgreen => grind
    case isFalse hgreen => grind

/-- Settles O7: the fields, their sum, and the mask form as the pixel widened to 32 bits. -/
theorem stage2PacksTopBits : Obligations.Stage2PacksTopBits := by
  intro p
  have mask := stage2MaskForm_eq p
  refine ⟨(stage2_redField p).trans ?red, (stage2_greenField p).trans ?green, (stage2_blueField p).trans ?blue, stage2_toNat p,
    ?word, ?bound⟩
  case red => exact extractLsb'_extractLsb'_inside p (by decide)
  case green => exact extractLsb'_extractLsb'_inside p (by decide)
  case blue => exact extractLsb'_extractLsb'_inside p (by decide)
  case word => exact ((congrArg (BitVec.setWidth 16) mask).trans (BitVec.setWidth_setWidth_of_le _ (by decide))).symm
  case bound =>
    change stage2MaskForm p < 0x10000#32
    rw [mask, BitVec.lt_def, BitVec.toNat_setWidth_of_le (by decide)]
    exact (stage2 p).isLt

/-! ## The bytes of a packed pixel -/

/-- The low byte is blue up to bit 4, and above it the low half of green's six bits (R142). -/
theorem stage2_lowByte (p : U32) :
    (stage2 p).extractLsb' 0 8 = (((green p >>> 2) &&& 0x07#8) <<< 5) ||| (blue p >>> 3) := by
  refine BitVec.eq_of_getLsbD_eq fun i hi => ?_
  have mask (j : Nat) : ((green p >>> 2) &&& 0x07#8).getLsbD j = _ := getLsbD_and_fieldMask (green p >>> 2) 0 3 j
  simp only [BitVec.getLsbD_extractLsb', stage2_getLsbD, BitVec.getLsbD_or, BitVec.getLsbD_shiftLeft,
    BitVec.getLsbD_ushiftRight, mask]
  by_cases hblue : i < 5
  case pos => grind
  case neg => grind

/-- The high byte is the high half of green's six bits up to bit 2, and above it red (R142). -/
theorem stage2_highByte (p : U32) : (stage2 p).extractLsb' 8 8 = ((red p >>> 3) <<< 3) ||| (green p >>> 5) := by
  refine BitVec.eq_of_getLsbD_eq fun i hi => ?_
  simp only [BitVec.getLsbD_extractLsb', stage2_getLsbD, BitVec.getLsbD_or, BitVec.getLsbD_shiftLeft,
    BitVec.getLsbD_ushiftRight]
  by_cases hgreen : i < 3
  case pos => grind
  case neg => grind

/-! ## Operation 2 -/

theorem red_memRead (m : Memory) (a : Nat) : red (memRead m a 4) = m.read a := memRead_byte m a 4 0 (by decide)

theorem green_memRead (m : Memory) (a : Nat) : green (memRead m a 4) = m.read (a + 1) := memRead_byte m a 4 1 (by decide)

theorem blue_memRead (m : Memory) (a : Nat) : blue (memRead m a 4) = m.read (a + 2) := memRead_byte m a 4 2 (by decide)

/-- Byte `j` of destination pixel `n` of operation 2 is byte `j` of stage 2 of source pixel `n` (R141). -/
theorem afterRgba8ToRgb565_read {o : Operands} {s : State} (h : s.mem.wf = true) (hc : Contract s .ch2 o) (σ : List Agent)
    {n j : Nat} (hn : n < pixelCount o) (hj : j < 2) :
    (afterCommand (.rgba8ToRgb565 o) s σ).mem.read (o.dst + 2 * n + j) =
      (stage2 (memRead s.mem (o.src + 4 * n) 4)).extractLsb' (8 * j) 8 := by
  rw [Nat.mul_comm 2 n, Nat.mul_comm 4 n]
  exact afterCommand_read_pixel (i := .rgba8ToRgb565 o) h hc σ hn hj

/-- Settles O52: the pass of an accepted command, read at the two bytes of each destination pixel and at the bytes outside the
destination region. -/
theorem passOfRgba8ToRgb565 : Obligations.PassOfRgba8ToRgb565 := by
  intro o s σ hwf hidle hc N
  refine ⟨_, afterCommand (.rgba8ToRgb565 o) s σ, exec_accepted hidle hc, run_accepted (i := .rgba8ToRgb565 o) hidle hc σ, rfl,
    afterCommand_mem_wf hwf σ, fun n hn => ⟨?low, ?high⟩, fun a ha => ?outside⟩
  case low =>
    have low := afterRgba8ToRgb565_read hwf hc σ hn (j := 0) (by decide)
    rwa [stage2_lowByte, green_memRead, blue_memRead] at low
  case high =>
    have high := afterRgba8ToRgb565_read hwf hc σ hn (j := 1) (by decide)
    rwa [stage2_highByte, red_memRead, green_memRead] at high
  case outside => exact afterCommand_read_outside hwf σ (ha.imp_right (N.mul_comm 2 ▸ ·))

end Sys2Proof.Machine
end

section
/-! Operation 3 (43_rgba8_to_rgba4.md): the packed pixel of R150 in its bit, sum and mask forms (R153), and the bytes its whole
pass leaves in memory (R151, R152). -/

namespace Sys2Proof.Machine

/-! ## The bits of a packed pixel -/

/-- A channel narrowed to 4 bits and placed at bit `lo` of a word is that channel's high nibble there, and 0 elsewhere (R150). -/
theorem narrow4_shiftLeft_getLsbD (c : U8) {lo : Nat} (hlo : lo ≤ 12) (i : Nat) :
    (narrow 4 c <<< lo).getLsbD i = (decide (lo ≤ i ∧ i < lo + 4) && c.getLsbD (4 + (i - lo))) := by
  rw [BitVec.getLsbD_shiftLeft, narrow_getLsbD]
  by_cases hi : lo ≤ i ∧ i < lo + 4
  case pos => simp [hi, show i < 16 by omega]
  case neg =>
    rw [decide_eq_false hi, Bool.false_and]
    by_cases hbelow : i < lo
    case pos => simp [hbelow]
    case neg => simp [BitVec.getLsbD_of_ge c (4 + (i - lo)) (by omega)]

/-- Stage 3, bit by bit: the high nibbles of alpha, blue, green and red, from the lowest up (R150). -/
theorem stage3_getLsbD (p : U32) (i : Nat) : (stage3 p).getLsbD i =
    if i < 4 then (alpha p).getLsbD (4 + i)
    else if i < 8 then (blue p).getLsbD i
    else if i < 12 then (green p).getLsbD (i - 4)
    else (red p).getLsbD (i - 8) := by
  rw [stage3, ← BitVec.shiftLeft_zero (narrow 4 (alpha p))]
  simp (disch := decide) only [BitVec.getLsbD_or, narrow4_shiftLeft_getLsbD]
  split
  case isTrue halpha => grind
  case isFalse halpha =>
    split
    case isTrue hblue => grind
    case isFalse hblue =>
      split
      case isTrue hgreen => grind
      case isFalse hgreen =>
        by_cases hi : i < 16
        case pos => grind
        case neg => simp [hi, hgreen, hblue, halpha, BitVec.getLsbD_of_ge (red p) (i - 8) (by omega)]

theorem stage3_redField (p : U32) : (stage3 p).extractLsb' 12 4 = (red p).extractLsb' 4 4 := by
  refine BitVec.eq_of_getLsbD_eq fun i hi => ?_
  simp [stage3_getLsbD, hi, show ¬ 12 + i < 4 by omega, show ¬ 12 + i < 8 by omega, show 12 + i - 8 = 4 + i by omega]

theorem stage3_greenField (p : U32) : (stage3 p).extractLsb' 8 4 = (green p).extractLsb' 4 4 := by
  refine BitVec.eq_of_getLsbD_eq fun i hi => ?_
  simp [stage3_getLsbD, hi, show ¬ 8 + i < 4 by omega, show 8 + i < 12 by omega, show 8 + i - 4 = 4 + i by omega]

theorem stage3_blueField (p : U32) : (stage3 p).extractLsb' 4 4 = (blue p).extractLsb' 4 4 := by
  refine BitVec.eq_of_getLsbD_eq fun i hi => ?_
  simp [stage3_getLsbD, hi, show 4 + i < 8 by omega]

theorem stage3_alphaField (p : U32) : (stage3 p).extractLsb' 0 4 = (alpha p).extractLsb' 4 4 := by
  refine BitVec.eq_of_getLsbD_eq fun i hi => ?_
  simp [stage3_getLsbD, hi]

/-- The four fields do not overlap, so the pixel is their sum. -/
theorem stage3_toNat (p : U32) : (stage3 p).toNat =
    (red p).toNat / 16 * 4096 + (green p).toNat / 16 * 256 + (blue p).toNat / 16 * 16 + (alpha p).toNat / 16 := by
  have hred := congrArg BitVec.toNat (stage3_redField p)
  have hgreen := congrArg BitVec.toNat (stage3_greenField p)
  have hblue := congrArg BitVec.toNat (stage3_blueField p)
  have halpha := congrArg BitVec.toNat (stage3_alphaField p)
  simp only [BitVec.extractLsb'_toNat, Nat.shiftRight_eq_div_pow] at hred hgreen hblue halpha
  omega

/-! ## The mask form -/

/-- The word R153 computes with three masks and four shifts on the 32-bit pixel. -/
def stage3MaskForm (p : U32) : U32 :=
  ((p &&& 0x000000F0#32) <<< 8) ||| ((p &&& 0x0000F000#32) >>> 4) ||| ((p &&& 0x00F00000#32) >>> 16) ||| (p >>> 28)

/-- A term of R153 that has, at bits `lo` to `lo + 3`, the high nibble of a channel, and 0 elsewhere, is that channel's term of
R150 widened. -/
theorem eq_setWidth_narrow4_shiftLeft {t : U32} {c : U8} {lo : Nat} (hlo : lo ≤ 12)
    (h : ∀ i, t.getLsbD i = (decide (lo ≤ i ∧ i < lo + 4) && c.getLsbD (4 + (i - lo)))) :
    t = (narrow 4 c <<< lo).setWidth 32 := by
  refine BitVec.eq_of_getLsbD_eq fun i hi => ?_
  rw [h, BitVec.getLsbD_setWidth, decide_eq_true hi, Bool.true_and, narrow4_shiftLeft_getLsbD c hlo]

theorem stage3MaskForm_redTerm (p : U32) : (p &&& 0x000000F0#32) <<< 8 = (narrow 4 (red p) <<< 12).setWidth 32 := by
  refine eq_setWidth_narrow4_shiftLeft (by decide) fun i => ?_
  have mask (j : Nat) : (p &&& 0x000000F0#32).getLsbD j = _ := getLsbD_and_fieldMask p 4 4 j
  rw [BitVec.getLsbD_shiftLeft, mask, red, BitVec.getLsbD_extractLsb']
  grind

theorem stage3MaskForm_greenTerm (p : U32) : (p &&& 0x0000F000#32) >>> 4 = (narrow 4 (green p) <<< 8).setWidth 32 := by
  refine eq_setWidth_narrow4_shiftLeft (by decide) fun i => ?_
  have mask (j : Nat) : (p &&& 0x0000F000#32).getLsbD j = _ := getLsbD_and_fieldMask p 12 4 j
  rw [BitVec.getLsbD_ushiftRight, mask, green, BitVec.getLsbD_extractLsb']
  grind

theorem stage3MaskForm_blueTerm (p : U32) : (p &&& 0x00F00000#32) >>> 16 = (narrow 4 (blue p) <<< 4).setWidth 32 := by
  refine eq_setWidth_narrow4_shiftLeft (by decide) fun i => ?_
  have mask (j : Nat) : (p &&& 0x00F00000#32).getLsbD j = _ := getLsbD_and_fieldMask p 20 4 j
  rw [BitVec.getLsbD_ushiftRight, mask, blue, BitVec.getLsbD_extractLsb']
  grind

theorem stage3MaskForm_alphaTerm (p : U32) : p >>> 28 = (narrow 4 (alpha p)).setWidth 32 := by
  rw [← BitVec.shiftLeft_zero (narrow 4 (alpha p))]
  refine eq_setWidth_narrow4_shiftLeft (by decide) fun i => ?_
  rw [BitVec.getLsbD_ushiftRight, alpha, BitVec.getLsbD_extractLsb']
  grind

/-- The mask form is stage 3 with no bit above it (R153): term by term it is the form of R150. -/
theorem stage3MaskForm_eq (p : U32) : stage3MaskForm p = (stage3 p).setWidth 32 := by
  rw [stage3MaskForm, stage3MaskForm_redTerm, stage3MaskForm_greenTerm, stage3MaskForm_blueTerm, stage3MaskForm_alphaTerm,
    stage3, BitVec.setWidth_or, BitVec.setWidth_or, BitVec.setWidth_or]

/-- Settles O8: the fields, their sum, and the mask form as the pixel widened to 32 bits. -/
theorem stage3PacksTopNibbles : Obligations.Stage3PacksTopNibbles := by
  intro p
  have mask := stage3MaskForm_eq p
  refine ⟨(stage3_redField p).trans ?red, (stage3_greenField p).trans ?green, (stage3_blueField p).trans ?blue,
    (stage3_alphaField p).trans ?alpha, stage3_toNat p, ?word, ?bound⟩
  case red => exact extractLsb'_extractLsb'_inside p (by decide)
  case green => exact extractLsb'_extractLsb'_inside p (by decide)
  case blue => exact extractLsb'_extractLsb'_inside p (by decide)
  case alpha => exact extractLsb'_extractLsb'_inside p (by decide)
  case word => exact ((congrArg (BitVec.setWidth 16) mask).trans (BitVec.setWidth_setWidth_of_le _ (by decide))).symm
  case bound =>
    change stage3MaskForm p < 0x10000#32
    rw [mask, BitVec.lt_def, BitVec.toNat_setWidth_of_le (by decide)]
    exact (stage3 p).isLt

/-! ## The bytes of a packed pixel -/

/-- The bits of a byte that keeps the high nibble of `x` and takes below it the high nibble of `y`. -/
theorem highNibbles_getLsbD (x y : U8) (i : Nat) : ((x &&& 0xF0#8) ||| (y >>> 4)).getLsbD i =
    if i < 4 then y.getLsbD (4 + i) else x.getLsbD i := by
  have mask : (x &&& 0xF0#8).getLsbD i = _ := getLsbD_and_fieldMask x 4 4 i
  rw [BitVec.getLsbD_or, BitVec.getLsbD_ushiftRight, mask]
  split
  case isTrue hlow => simp [show ¬ 4 ≤ i by omega]
  case isFalse hlow =>
    have noLow : y.getLsbD (4 + i) = false := BitVec.getLsbD_of_ge _ _ (by omega)
    by_cases hi : i < 8
    case pos => simp [noLow, hi, Nat.not_lt.1 hlow]
    case neg => simp [noLow, BitVec.getLsbD_of_ge x i (by omega)]

/-- The low byte is blue's high nibble above alpha's (R152). -/
theorem stage3_lowByte (p : U32) : (stage3 p).extractLsb' 0 8 = (blue p &&& 0xF0#8) ||| (alpha p >>> 4) := by
  refine BitVec.eq_of_getLsbD_eq fun i hi => ?_
  rw [highNibbles_getLsbD, BitVec.getLsbD_extractLsb', stage3_getLsbD]
  split
  case isTrue halpha => grind
  case isFalse hblue => grind

/-- The high byte is red's high nibble above green's (R152). -/
theorem stage3_highByte (p : U32) : (stage3 p).extractLsb' 8 8 = (red p &&& 0xF0#8) ||| (green p >>> 4) := by
  refine BitVec.eq_of_getLsbD_eq fun i hi => ?_
  rw [highNibbles_getLsbD, BitVec.getLsbD_extractLsb', stage3_getLsbD]
  split
  case isTrue hgreen => grind
  case isFalse hred => grind

/-! ## Operation 3 -/

theorem alpha_memRead (m : Memory) (a : Nat) : alpha (memRead m a 4) = m.read (a + 3) := memRead_byte m a 4 3 (by decide)

/-- Byte `j` of destination pixel `n` of operation 3 is byte `j` of stage 3 of source pixel `n` (R151). -/
theorem afterRgba8ToRgba4_read {o : Operands} {s : State} (h : s.mem.wf = true) (hc : Contract s .ch3 o) (σ : List Agent)
    {n j : Nat} (hn : n < pixelCount o) (hj : j < 2) :
    (afterCommand (.rgba8ToRgba4 o) s σ).mem.read (o.dst + 2 * n + j) =
      (stage3 (memRead s.mem (o.src + 4 * n) 4)).extractLsb' (8 * j) 8 := by
  rw [Nat.mul_comm 2 n, Nat.mul_comm 4 n]
  exact afterCommand_read_pixel (i := .rgba8ToRgba4 o) h hc σ hn hj

/-- Settles O53: the pass of an accepted command, read at the two bytes of each destination pixel and at the bytes outside the
destination region. -/
theorem passOfRgba8ToRgba4 : Obligations.PassOfRgba8ToRgba4 := by
  intro o s σ hwf hidle hc N
  refine ⟨_, afterCommand (.rgba8ToRgba4 o) s σ, exec_accepted hidle hc, run_accepted (i := .rgba8ToRgba4 o) hidle hc σ, rfl,
    afterCommand_mem_wf hwf σ, fun n hn => ⟨?low, ?high⟩, fun a ha => ?outside⟩
  case low =>
    have low := afterRgba8ToRgba4_read hwf hc σ hn (j := 0) (by decide)
    rwa [stage3_lowByte, blue_memRead, alpha_memRead] at low
  case high =>
    have high := afterRgba8ToRgba4_read hwf hc σ hn (j := 1) (by decide)
    rwa [stage3_highByte, red_memRead, green_memRead] at high
  case outside => exact afterCommand_read_outside hwf σ (ha.imp_right (N.mul_comm 2 ▸ ·))

end Sys2Proof.Machine
end

section
/-! Operation 4 (44_rgba8_to_la88.md): what luma can be in a configuration (R162 to R166), the luma-alpha word of R160, and the
bytes its whole pass leaves in memory (R161, R167, R168). -/

namespace Sys2Proof.Machine

/-! ## The weighted sum -/

/-- The weights add up to 10000, so the sum is not below 10000 times the least channel (R165). -/
theorem min_le_lumaSum (r g b : U8) : 10000 * min r.toNat (min g.toNat b.toNat) ≤ lumaSum r g b := by
  unfold lumaSum
  omega

/-- The weights add up to 10000, so the sum is not above 10000 times the greatest channel (R165). -/
theorem lumaSum_le_max (r g b : U8) : lumaSum r g b ≤ 10000 * max r.toNat (max g.toNat b.toNat) := by
  unfold lumaSum
  omega

theorem lumaSum_grey (v : U8) : lumaSum v v v = 10000 * v.toNat := by
  unfold lumaSum
  omega

/-- Every weight is positive, so a pixel that is nowhere below another has a greater sum unless it is the same pixel. -/
theorem eq_or_lumaSum_lt {r g b r' g' b' : U8} (hr : r ≤ r') (hg : g ≤ g') (hb : b ≤ b') :
    (r = r' ∧ g = g' ∧ b = b') ∨ lumaSum r g b < lumaSum r' g' b' := by
  rw [BitVec.le_def] at hr hg hb
  rw [BitVec.toNat_eq, BitVec.toNat_eq, BitVec.toNat_eq]
  unfold lumaSum
  omega

/-! ## Luma of a configuration -/

theorem luma_congr {c c' : Config} (h : c.lumaArith = c'.lumaArith) : luma c = luma c' := by
  funext r g b
  rw [luma, luma, h]

theorem luma_toNat_of_exact {c : Config} (h : c.lumaArith = .exact) (r g b : U8) :
    (luma c r g b).toNat = lumaSum r g b / 10000 := by
  rw [luma_toNat, h, lumaIn_exact, lumaExact]

/-- R164: R162's value, or, at a whole sum only, one less. -/
theorem luma_toNat_cases (c : Config) (r g b : U8) : (luma c r g b).toNat = lumaSum r g b / 10000 ∨
    (lumaSum r g b % 10000 = 0 ∧ (luma c r g b).toNat + 1 = lumaSum r g b / 10000) := by
  rw [luma_toNat]
  rcases lumaIn_cases c.lumaArith r g b with asExact | ⟨whole, oneLess⟩
  · exact .inl asExact
  · unfold lumaExact at oneLess
    omega

/-- Where the sum is not a whole number every configuration has the same luma (R164). -/
theorem luma_eq_of_not_whole {r g b : U8} (h : lumaSum r g b % 10000 ≠ 0) (c c' : Config) : luma c r g b = luma c' r g b := by
  have asExact (d : Config) : (luma d r g b).toNat = lumaSum r g b / 10000 :=
    (luma_toNat_cases d r g b).resolve_right fun oneLess => h oneLess.1
  exact BitVec.eq_of_toNat_eq ((asExact c).trans (asExact c').symm)

/-- R166 (b), upper bound: R162's value is not above the greatest channel, and luma is not above R162's value. -/
theorem luma_le_max (c : Config) (r g b : U8) : (luma c r g b).toNat ≤ max r.toNat (max g.toNat b.toNat) := by
  have sum := lumaSum_le_max r g b
  have value := luma_toNat_cases c r g b
  omega

/-- R166 (b), lower bound, which a configuration that answers one less at a grey does not meet. -/
theorem min_le_luma {c : Config} (h : c.lumaArith = .exact) (r g b : U8) :
    min r.toNat (min g.toNat b.toNat) ≤ (luma c r g b).toNat := by
  have sum := min_le_lumaSum r g b
  rw [luma_toNat_of_exact h]
  omega

/-- R166 (a). -/
theorem luma_grey {c : Config} (h : c.lumaArith = .exact) (v : U8) : luma c v v v = v := by
  refine BitVec.eq_of_toNat_eq ?_
  rw [luma_toNat_of_exact h, lumaSum_grey, Nat.mul_div_cancel_left _ (by decide)]

/-- R166 (c). Where the greater pixel answers one less, its sum is a whole number, and the smaller sum lies below it. -/
theorem luma_mono (c : Config) {r g b r' g' b' : U8} (hr : r ≤ r') (hg : g ≤ g') (hb : b ≤ b') :
    luma c r g b ≤ luma c r' g' b' := by
  obtain ⟨rfl, rfl, rfl⟩ | less := eq_or_lumaSum_lt hr hg hb
  · exact BitVec.le_refl _
  · have value := luma_toNat_cases c r g b
    have value' := luma_toNat_cases c r' g' b'
    rw [BitVec.le_def]
    omega

/-! ## The configuration of an evaluation -/

/-- The pixels at which an evaluation `f` answers one less than R162. -/
def oneLowInputs (f : U8 → U8 → U8 → U8) : List (U8 × U8 × U8) :=
  (FinEnum.toList (U8 × U8 × U8)).filter fun (r, g, b) => (f r g b).toNat + 1 = lumaSum r g b / 10000

theorem mem_oneLowInputs (f : U8 → U8 → U8 → U8) (r g b : U8) :
    (r, g, b) ∈ oneLowInputs f ↔ (f r g b).toNat + 1 = lumaSum r g b / 10000 := by
  simp [oneLowInputs]

/-- An evaluation that differs from R162 as R164 allows is the luma that lists its low inputs. -/
theorem lumaIn_oneLowInputs {f : U8 → U8 → U8 → U8} {r g b : U8}
    (h : (f r g b).toNat = lumaSum r g b / 10000 ∨
      (lumaSum r g b % 10000 = 0 ∧ (f r g b).toNat + 1 = lumaSum r g b / 10000)) :
    lumaIn (.oneLowAt (oneLowInputs f)) r g b = (f r g b).toNat := by
  simp only [lumaIn, mem_oneLowInputs, lumaExact]
  split
  case isTrue listed => omega
  case isFalse unlisted => exact (h.resolve_right unlisted).symm

/-! ## The luma-alpha word -/

/-- R160: the alpha byte above the luma byte. -/
theorem stage4_eq_append (c : Config) (p : U32) :
    stage4 c p = (alpha p ++ luma c (red p) (green p) (blue p) : BitVec (8 + 8)) := by
  rw [stage4, ← BitVec.setWidth_append_eq_shiftLeft_setWidth_or, BitVec.setWidth_eq]

theorem stage4_lowByte (c : Config) (p : U32) : (stage4 c p).extractLsb' 0 8 = luma c (red p) (green p) (blue p) := by
  rw [stage4_eq_append, BitVec.extractLsb'_append_eq_of_add_le (by decide), BitVec.extractLsb'_eq_self]

theorem stage4_highByte (c : Config) (p : U32) : (stage4 c p).extractLsb' 8 8 = alpha p := by
  rw [stage4_eq_append, BitVec.extractLsb'_append_eq_of_le (by decide), BitVec.extractLsb'_eq_self]

/-- The two bytes do not overlap, so the word is their sum. -/
theorem stage4_toNat (c : Config) (p : U32) :
    (stage4 c p).toNat = (alpha p).toNat * 256 + (luma c (red p) (green p) (blue p)).toNat := by
  rw [stage4_eq_append, BitVec.toNat_append, ← Nat.shiftLeft_add_eq_or_of_lt (BitVec.isLt _), Nat.shiftLeft_eq]

/-- Settles O9: the two bytes of the word, and the bounds of the sum. -/
theorem stage4IsLumaAndAlpha : Obligations.Stage4IsLumaAndAlpha := by
  refine ⟨fun c p => ⟨stage4_lowByte c p, stage4_highByte c p, stage4_toNat c p⟩, rfl, fun c r g b hexact => ?exact,
    fun c r g b => ?range⟩
  case exact => exact ⟨luma_toNat_of_exact hexact r g b, min_le_luma hexact r g b, luma_le_max c r g b⟩
  case range =>
    have quotientFits : lumaSum r g b / 10000 ≤ 255 := Nat.div_le_of_le_mul (lumaSum_le r g b)
    exact ⟨min_le_lumaSum r g b, lumaSum_le_max r g b, lumaSum_le r g b, quotientFits, luma_toNat c r g b⟩

/-! ## A pixel from its four bytes -/

section
variable (r g b a : U8)

theorem red_append : red (a ++ b ++ g ++ r : BitVec (8 + 8 + 8 + 8)) = r := by
  rw [red, BitVec.extractLsb'_append_eq_of_add_le (by decide), BitVec.extractLsb'_eq_self]

theorem green_append : green (a ++ b ++ g ++ r : BitVec (8 + 8 + 8 + 8)) = g := by
  rw [green, BitVec.extractLsb'_append_eq_of_le (by decide), BitVec.extractLsb'_append_eq_of_add_le (by decide),
    BitVec.extractLsb'_eq_self]

theorem blue_append : blue (a ++ b ++ g ++ r : BitVec (8 + 8 + 8 + 8)) = b := by
  rw [blue, BitVec.extractLsb'_append_eq_of_le (by decide), BitVec.extractLsb'_append_eq_of_le (by decide),
    BitVec.extractLsb'_append_eq_of_add_le (by decide), BitVec.extractLsb'_eq_self]

theorem alpha_append : alpha (a ++ b ++ g ++ r : BitVec (8 + 8 + 8 + 8)) = a := by
  rw [alpha, BitVec.extractLsb'_append_eq_of_le (by decide), BitVec.extractLsb'_append_eq_of_le (by decide),
    BitVec.extractLsb'_append_eq_of_le (by decide), BitVec.extractLsb'_eq_self]

end

/-- Settles O10: the laws of luma, those of the word through its two bytes, and the listed values in the default configuration. -/
theorem lumaLaws : Obligations.LumaLaws := by
  refine ⟨fun c hexact => ⟨luma_grey hexact, min_le_luma hexact, ?primaries, ?smallest, fun l a => ?greyPixel⟩, luma_le_max,
    fun c r g b r' g' b' => luma_mono c, fun c p q hr hg hb => ?lumaByte, fun c p q ha => ?alphaByte⟩
  case primaries =>
    rw [luma_congr (c' := .default) hexact]
    decide
  case smallest =>
    rw [luma_congr (c' := .default) hexact]
    decide
  case greyPixel =>
    rw [stage4_eq_append, red_append, green_append, blue_append, alpha_append, luma_grey hexact]
  case lumaByte => rw [stage4_lowByte, stage4_lowByte, hr, hg, hb]
  case alphaByte => rw [stage4_highByte, stage4_highByte, ha]

/-- Settles O11: an evaluation is the luma of the configuration that lists its low inputs. -/
theorem lumaOfAConfigurationDiffersOnlyAtWholeSums : Obligations.LumaOfAConfigurationDiffersOnlyAtWholeSums := by
  refine ⟨luma_toNat_cases, fun c c' p hsum => ?stage, fun v => ?grey, fun w f hf => ?evaluation⟩
  case stage => rw [stage4, luma_eq_of_not_whole hsum c c', stage4]
  case grey => rw [lumaSum_grey, Nat.mul_mod_right]
  case evaluation =>
    refine ⟨{ addrW := w, lumaArith := .oneLowAt (oneLowInputs f) }, rfl, fun r g b => BitVec.eq_of_toNat_eq ?_⟩
    rw [luma_toNat, lumaIn_oneLowInputs (hf r g b)]

/-! ## Operation 4 -/

/-- Byte `j` of destination pixel `n` of operation 4 is byte `j` of stage 4 of source pixel `n` (R161). -/
theorem afterRgba8ToLa88_read {o : Operands} {s : State} (h : s.mem.wf = true) (hc : Contract s .ch4 o) (σ : List Agent)
    {n j : Nat} (hn : n < pixelCount o) (hj : j < 2) :
    (afterCommand (.rgba8ToLa88 o) s σ).mem.read (o.dst + 2 * n + j) =
      (stage4 s.cfg (memRead s.mem (o.src + 4 * n) 4)).extractLsb' (8 * j) 8 := by
  rw [Nat.mul_comm 2 n, Nat.mul_comm 4 n]
  exact afterCommand_read_pixel (i := .rgba8ToLa88 o) h hc σ hn hj

/-- Settles O54: the pass of an accepted command, read at the luma and the alpha byte of each destination pixel and at the bytes
outside the destination region. -/
theorem passOfRgba8ToLa88 : Obligations.PassOfRgba8ToLa88 := by
  intro o s σ hwf hidle hc N
  refine ⟨_, afterCommand (.rgba8ToLa88 o) s σ, exec_accepted hidle hc, run_accepted (i := .rgba8ToLa88 o) hidle hc σ, rfl,
    afterCommand_mem_wf hwf σ, fun n hn => ?pixel, fun a ha => ?outside⟩
  case pixel =>
    have low := afterRgba8ToLa88_read hwf hc σ hn (j := 0) (by decide)
    have high := afterRgba8ToLa88_read hwf hc σ hn (j := 1) (by decide)
    rw [stage4_lowByte, red_memRead, green_memRead, blue_memRead] at low
    rw [stage4_highByte, alpha_memRead] at high
    exact ⟨low, fun hexact => (congrArg BitVec.toNat low).trans (luma_toNat_of_exact hexact _ _ _), high⟩
  case outside => exact afterCommand_read_outside hwf σ (ha.imp_right (N.mul_comm 2 ▸ ·))

end Sys2Proof.Machine
end

section
/-! Operation 5 (45_rgb565_to_rgba5551.md): the shifted word of R175, its fields (R177) and its laws (R180), and the bytes its
whole pass leaves in memory (R176, R179). -/

namespace Sys2Proof.Machine

/-! ## The shifted word -/

/-- R175: the low 15 bits of the source word, and a 1 below them. -/
theorem stage5_eq_append (q : U16) : stage5 q = (q.extractLsb' 0 15 ++ 1#1 : BitVec (15 + 1)) := by
  have lowBit : 1#16 = (0#15 ++ 1#1 : BitVec (15 + 1)) := by decide
  rw [stage5, BitVec.shiftLeft_eq_concat_of_lt (by decide), BitVec.cast_eq, lowBit, BitVec.or_append, BitVec.or_zero,
    BitVec.zero_or]

theorem stage5_bitZero (q : U16) : (stage5 q).extractLsb' 0 1 = 1#1 := by
  rw [stage5_eq_append, BitVec.extractLsb'_append_eq_right]

/-- A field of the source word below bit 15 stands one bit higher in the result (R177). -/
theorem stage5_field (q : U16) {lo len : Nat} (h : lo + len ≤ 15) :
    (stage5 q).extractLsb' (lo + 1) len = q.extractLsb' lo len := by
  rw [stage5_eq_append, BitVec.extractLsb'_append_eq_of_le (Nat.le_add_left 1 lo), Nat.add_sub_cancel,
    extractLsb'_extractLsb'_inside q h, Nat.zero_add]

theorem stage5_toNat (q : U16) : (stage5 q).toNat = (2 * q.toNat + 1) % 65536 := by
  have top := congrArg BitVec.toNat (stage5_field q (lo := 0) (len := 15) (by decide))
  have bit := congrArg BitVec.toNat (stage5_bitZero q)
  simp only [BitVec.extractLsb'_toNat, Nat.shiftRight_eq_div_pow, BitVec.toNat_ofNat] at top bit
  omega

/-! ## Its preimages -/

/-- R180 (c): one-to-one on the low 15 bits. -/
theorem stage5_eq_stage5_iff (q q' : U16) : stage5 q = stage5 q' ↔ q.extractLsb' 0 15 = q'.extractLsb' 0 15 := by
  rw [stage5_eq_append, stage5_eq_append]
  exact BitVec.append_left_inj _

/-- R180 (b): the top bit is shifted out. -/
theorem stage5_xor_topBit (q : U16) : stage5 (q ^^^ 0x8000#16) = stage5 q := by
  have topBitHigh : (0x8000#16).extractLsb' 0 15 = 0#15 := by decide
  rw [stage5_eq_stage5_iff, BitVec.extractLsb'_xor, topBitHigh, BitVec.xor_zero]

theorem stage5_odd (q : U16) : (stage5 q).toNat % 2 = 1 := by
  rw [stage5_toNat]
  omega

/-- Halving an odd word gives a preimage of it. -/
theorem stage5_ushiftRight_one {w : U16} (h : w.toNat % 2 = 1) : stage5 (w >>> 1) = w := by
  refine BitVec.eq_of_toNat_eq ?_
  rw [stage5_toNat, BitVec.toNat_ushiftRight, Nat.shiftRight_eq_div_pow]
  omega

/-- Where the top bit is clear, setting it adds its weight. -/
theorem toNat_or_topBit {x : U16} (h : x.toNat < 2 ^ 15) : (x ||| 0x8000#16).toNat = x.toNat + 2 ^ 15 := by
  rw [BitVec.toNat_or, Nat.or_comm]
  exact (Nat.two_pow_add_eq_or_of_lt h 1).symm.trans (Nat.add_comm _ _)

/-- R180 (d): an odd word has two preimages, its half and that with the top bit set. -/
theorem stage5_eq_iff {w : U16} (h : w.toNat % 2 = 1) (q : U16) :
    stage5 q = w ↔ q = w >>> 1 ∨ q = (w >>> 1) ||| 0x8000#16 := by
  have half : (w >>> 1).toNat = w.toNat / 2 := by rw [BitVec.toNat_ushiftRight, Nat.shiftRight_eq_div_pow]
  have halfWithTopBit := toNat_or_topBit (x := w >>> 1) (by omega)
  rw [BitVec.toNat_eq, BitVec.toNat_eq, BitVec.toNat_eq, halfWithTopBit, half, stage5_toNat]
  omega

/-- R180 (e): a second application shifts once more. -/
theorem stage5_stage5 (q : U16) : stage5 (stage5 q) = (q <<< 2) ||| 3#16 := by
  have ones : 1#16 <<< 1 ||| 1#16 = 3#16 := by decide
  rw [stage5, stage5, BitVec.shiftLeft_or_distrib, ← BitVec.shiftLeft_add, BitVec.or_assoc, ones]

/-- Settles O12: the fields of the shifted word, and the laws as its preimages and its arithmetic give them. -/
theorem stage5ShiftsTheWholeWord : Obligations.Stage5ShiftsTheWholeWord := by
  refine ⟨fun q => ⟨stage5_field q (by decide), stage5_bitZero q, stage5_toNat q⟩,
    fun q => ⟨?red, stage5_field q (by decide), stage5_field q (by decide), stage5_bitZero q⟩,
    fun q => (stage5_xor_topBit q).symm, stage5_eq_stage5_iff, fun w => ⟨?odd, ?image⟩, fun w q hodd => stage5_eq_iff hodd q,
    stage5_stage5, ⟨0#16, by decide⟩, ⟨0#16, by decide⟩⟩
  case red =>
    have joined := BitVec.extractLsb'_append_extractLsb'_eq_extractLsb' (x := q) (start₁ := 10) (len₁ := 1) (len₂ := 4) rfl
    exact (stage5_field q (by decide)).trans joined.symm
  case odd =>
    rintro ⟨q, rfl⟩
    exact stage5_odd q
  case image => exact fun hodd => ⟨w >>> 1, stage5_ushiftRight_one hodd⟩

/-! ## The bytes of a shifted word -/

/-- The low byte is the source's low byte shifted, with bit 0 set (R179). -/
theorem stage5_lowByte (q : U16) : (stage5 q).extractLsb' 0 8 = (q.extractLsb' 0 8 <<< 1) ||| 1#8 := by
  have lowByte (x : U16) : x.extractLsb' 0 8 = x.setWidth 8 := (BitVec.setWidth_eq_extractLsb' (by decide)).symm
  have one : (1#16).setWidth 8 = 1#8 := by decide
  rw [lowByte, lowByte, stage5, BitVec.setWidth_or, BitVec.setWidth_shiftLeft_of_le (by decide), one]

/-- The high byte is the source's high byte shifted, with the top bit of the low byte below it (R179). -/
theorem stage5_highByte (q : U16) :
    (stage5 q).extractLsb' 8 8 = (q.extractLsb' 8 8 <<< 1) ||| (q.extractLsb' 0 8 >>> 7) := by
  rw [stage5_field q (lo := 7) (by decide)]
  refine BitVec.eq_of_getLsbD_eq fun i hi => ?_
  simp only [BitVec.getLsbD_extractLsb', BitVec.getLsbD_or, BitVec.getLsbD_shiftLeft, BitVec.getLsbD_ushiftRight]
  cases i with
  | zero => simp
  | succ i => simp [hi, show i < 8 by omega, show 7 + (i + 1) = 8 + i by omega]

/-! ## Operation 5 -/

/-- Byte `j` of destination pixel `n` of operation 5 is byte `j` of stage 5 of source pixel `n` (R176). -/
theorem afterRgb565ToRgba5551_read {o : Operands} {s : State} (h : s.mem.wf = true) (hc : Contract s .ch5 o)
    (σ : List Agent) {n j : Nat} (hn : n < pixelCount o) (hj : j < 2) :
    (afterCommand (.rgb565ToRgba5551 o) s σ).mem.read (o.dst + 2 * n + j) =
      (stage5 (memRead s.mem (o.src + 2 * n) 2)).extractLsb' (8 * j) 8 := by
  rw [Nat.mul_comm 2 n]
  exact afterCommand_read_pixel (i := .rgb565ToRgba5551 o) h hc σ hn hj

/-- Settles O55: the pass of an accepted command, read at the two bytes of each destination pixel and at the bytes outside the
destination region. -/
theorem passOfRgb565ToRgba5551 : Obligations.PassOfRgb565ToRgba5551 := by
  intro o s σ hwf hidle hc N
  refine ⟨_, afterCommand (.rgb565ToRgba5551 o) s σ, exec_accepted hidle hc,
    run_accepted (i := .rgb565ToRgba5551 o) hidle hc σ, rfl, afterCommand_mem_wf hwf σ, fun n hn => ?pixel,
    fun a ha => ?outside⟩
  case pixel =>
    have source {j : Nat} (hj : j < 2) := memRead_byte s.mem (o.src + 2 * n) 2 j hj
    have written {j : Nat} (hj : j < 2) := afterRgb565ToRgba5551_read hwf hc σ hn hj
    have lo : (memRead s.mem (o.src + 2 * n) 2).extractLsb' 0 8 = s.mem.read (o.src + 2 * n) := source (j := 0) (by decide)
    have hi : (memRead s.mem (o.src + 2 * n) 2).extractLsb' 8 8 = s.mem.read (o.src + 2 * n + 1) := source (j := 1) (by decide)
    have low := written (j := 0) (by decide)
    have high := written (j := 1) (by decide)
    rw [stage5_lowByte, lo] at low
    rw [stage5_highByte, hi, lo] at high
    exact ⟨low, high⟩
  case outside => exact afterCommand_read_outside hwf σ (ha.imp_right (N.mul_comm 2 ▸ ·))

end Sys2Proof.Machine
end

section
/-! The refusals of a step (60_exceptions.md R190, R192): whose turn they come from, and the case each reason stands for. -/

namespace Sys2Proof.Machine

/-- A check that fails is a clause of the contract that does not hold (R102). -/
theorem not_contract_of_issueRefusal {s : State} {k : Chan} {o : Operands} {r : Refusal}
    (h : issueRefusal s k o = some r) : ¬ Contract s k o := fun hc =>
  nomatch h.symm.trans ((issueRefusal_eq_none_iff_contract s k o).2 hc)

/-- R192's closed list: every reason but the host interface's own name. -/
theorem act_refused_closedList {a : Agent} {s : State} {r : Refusal} (h : act a s = .refused r) :
    r = .reservedEncoding ∨ r = .addressWrap ∨ r = .invalidBufferSize ∨ r = .bufferOverlap ∨ r = .channelConflict ∨
      r = .leaseViolation := by
  cases a with
  | channel k =>
    obtain ⟨_, _, _, rfl, _⟩ := channelStep_refused h
    simp
  | host =>
    rcases hostStep_refused h with ⟨_, _, _, _, _, rfl⟩ | ⟨_, _, _, _, _, _, _, hcheck⟩ | ⟨_, _, _, _, rfl⟩ |
      ⟨_, _, _, _, _, rfl⟩ | ⟨_, _, _, _, _, _, rfl⟩
    case inr.inl => rcases issueRefusal_eq_some hcheck with rfl | rfl | rfl | rfl <;> simp
    all_goals simp

/-- Under the invariant every channel's turn answers, so a refused step is a refused turn of the host. -/
theorem State.Inv.hostStep_of_step_refused {s : State} {r : Refusal} (h : s.Inv) (hs : step s = .refused r) :
    ∃ σ d, hostStep { s with schedule := σ, draws := d } = .refused r := by
  obtain ⟨a, σ, d, ha⟩ := step_refused hs
  cases a with
  | host => exact ⟨σ, d, ha⟩
  | channel k =>
    have turnTaken : State.Inv { s with schedule := σ, draws := d } := h.of_eq rfl rfl rfl
    obtain ⟨t, ht⟩ := channelStep_answers turnTaken k
    cases ht.symm.trans ha

/-- Settles O41: a refused step is a refused turn, under the invariant one of the host, and its case names the reason. -/
theorem everyRefusalIsOfTheClosedList : Obligations.EveryRefusalIsOfTheClosedList := by
  refine ⟨fun s r hs => ?closed, (fun _ r => nomatch r), fun s r h hs => ?cases⟩
  case closed =>
    obtain ⟨a, σ, d, ha⟩ := step_refused hs
    exact act_refused_closedList ha
  case cases =>
    obtain ⟨σ, d, hturn⟩ := h.hostStep_of_step_refused hs
    rcases hostStep_refused hturn with ⟨bits, lent, rest, hmove, hd, hr⟩ | ⟨bits, lent, rest, i, hmove, hd, hidle, hcheck⟩ |
      ⟨a, rest, hmove, ha, hr⟩ | ⟨a, rest, hmove, ha, hleased, hr⟩ | ⟨a, b, rest, hmove, ha, hsrc | hdst, hr⟩
    · exact .inl ⟨bits, lent, rest, hmove, hd, hr⟩
    · have refused : exec i { s with host := rest, lent := lent } = .refused r := exec_refused hidle hcheck
      exact .inr (.inl ⟨bits, lent, rest, i, hmove, hd, hidle, not_contract_of_issueRefusal hcheck, refused⟩)
    · exact .inr (.inr (.inl ⟨a, rest, ha, hmove, hr⟩))
    · obtain ⟨k, p, hp, hhas⟩ := (leasedDst_eq_true _ a).1 hleased
      exact .inr (.inr (.inr ⟨a, rest, k, p, ha, hp, hr, .inl ⟨hhas, .inl hmove⟩⟩))
    · obtain ⟨k, p, hp, hhas⟩ := (leasedSrc_eq_true _ a).1 hsrc
      exact .inr (.inr (.inr ⟨a, rest, k, p, ha, hp, hr, .inr ⟨hhas, b, hmove⟩⟩))
    · obtain ⟨k, p, hp, hhas⟩ := (leasedDst_eq_true _ a).1 hdst
      exact .inr (.inr (.inr ⟨a, rest, k, p, ha, hp, hr, .inl ⟨hhas, .inr ⟨b, hmove⟩⟩⟩))

end Sys2Proof.Machine
end

section
/-! The reset input, the leases of the host and the hazards of a program (70_reset_and_hazards.md R220 to R222, R226 to R231). -/

namespace Sys2Proof.Machine

/-! ## Reset (R220 to R222) -/

/-- An idle channel is left as it is (R221). -/
theorem resetChannel_of_idle {s : State} {k : Chan} (h : s.ch.get k = none) : resetChannel s k = s := by
  simp only [resetChannel, h]

/-- The passes in flight after the reset of one channel are those of the other channels. -/
theorem resetChannel_get_eq_some {s : State} {j k : Chan} {q : Pass} :
    (resetChannel s k).ch.get j = some q ↔ j ≠ k ∧ s.ch.get j = some q := by
  rw [resetChannel_get]
  split_ifs with hjk <;> simp [hjk]

theorem resetBlock_of_allIdle {s : State} (h : s.allIdle) : resetBlock s = s :=
  List.foldl_fixed' (fun k => resetChannel_of_idle (h k)) Chan.all

/-- A byte that was drawn stays a drawn one: a further channel draws it again or leaves it alone. -/
theorem resetChannel_read_free {s : State} (h : s.mem.wf = true) (k : Chan) {a : Nat}
    (hfree : ∃ d, s.mem.read a = Config.freeByte d) : ∃ d, (resetChannel s k).mem.read a = Config.freeByte d := by
  by_cases hin : ∃ p, s.ch.get k = some p ∧ (p.dstRegion k).has a = true
  · obtain ⟨p, hp, ha⟩ := hin
    exact resetChannel_read_inside h hp ha
  · have outside : ∀ p, s.ch.get k = some p → (p.dstRegion k).has a = false := by simpa using hin
    rwa [resetChannel_read_other h k outside]

theorem resetChannels_read_free {s : State} (h : s.mem.wf = true) {a : Nat}
    (hfree : ∃ d, s.mem.read a = Config.freeByte d) (l : List Chan) :
    ∃ d, (l.foldl resetChannel s).mem.read a = Config.freeByte d := by
  induction l generalizing s with
  | nil => exact hfree
  | cons k l ih => exact ih (resetChannel_wf h k) (resetChannel_read_free h k hfree)

/-- Each channel reset draws the bytes of the destination region of its pass in flight (R222). -/
theorem resetChannels_read_inside {s : State} (h : s.mem.wf = true) {k : Chan} {p : Pass} (hp : s.ch.get k = some p)
    {a : Nat} (ha : (p.dstRegion k).has a = true) {l : List Chan} (hk : k ∈ l) :
    ∃ d, (l.foldl resetChannel s).mem.read a = Config.freeByte d := by
  induction l generalizing s with
  | nil => cases hk
  | cons j l ih =>
    by_cases hkj : k = j
    · subst hkj
      exact resetChannels_read_free (resetChannel_wf h k) (resetChannel_read_inside h hp ha) l
    · exact ih (resetChannel_wf h j) (resetChannel_get_eq_some.2 ⟨hkj, hp⟩) (List.mem_of_ne_of_mem hkj hk)

/-- A byte in no destination region in flight is kept (R222). -/
theorem resetChannels_read_outside {s : State} (h : s.mem.wf = true) {a : Nat}
    (ha : ∀ k p, s.ch.get k = some p → (p.dstRegion k).has a = false) (l : List Chan) :
    (l.foldl resetChannel s).mem.read a = s.mem.read a := by
  induction l generalizing s with
  | nil => rfl
  | cons j l ih =>
    have stillOutside : ∀ k p, (resetChannel s j).ch.get k = some p → (p.dstRegion k).has a = false :=
      fun k p hp => ha k p (resetChannel_get_eq_some.1 hp).2
    exact (ih (resetChannel_wf h j) stillOutside).trans (resetChannel_read_other h j (ha j))

/-- With every channel idle no address is leased. -/
theorem not_leased_of_allIdle {s : State} (h : s.allIdle) (a : Nat) : s.leasedSrc a = false ∧ s.leasedDst a = false :=
  ⟨(leasedSrc_eq_false s a).2 fun k _ hp => (nomatch (h k).symm.trans hp),
    (leasedDst_eq_false s a).2 fun k _ hp => (nomatch (h k).symm.trans hp)⟩

theorem hostStep_reset {s : State} {rest : List HostMove} (h : s.host = .reset :: rest) :
    hostStep s = .next (resetBlock { s with host := rest }) := by
  simp only [hostStep, h]

/-- Settles O32: the move is the reset of the five channels one after the other; a byte drawn for one of them stays a drawn one,
and a byte outside every destination region is kept by all. -/
theorem resetIdlesEveryChannel : Obligations.ResetIdlesEveryChannel := by
  intro s rest hwf hh
  refine ⟨_, hostStep_reset hh, resetBlock_get _, resetBlock_seen _, resetBlock_host _, resetBlock_cfg _,
    resetBlock_schedule _, resetBlock_lent _, fun a ha => ?outside, fun a k p hp ha => ?inside,
    not_leased_of_allIdle (resetBlock_get _)⟩
  case outside => exact resetChannels_read_outside (s := { s with host := rest }) hwf ha Chan.all
  case inside => exact resetChannels_read_inside (s := { s with host := rest }) hwf hp ha k.mem_all

/-- Settles O33: the reset of an idle channel changes nothing. -/
theorem resetWhenIdleChangesNothing : Obligations.ResetWhenIdleChangesNothing := by
  intro s rest hidle hh
  have idle : State.allIdle { s with host := rest } := hidle
  rw [hostStep_reset hh, resetBlock_of_allIdle idle]

/-! ## The host's accesses under the leases (R226 to R228) -/

section
variable {s : State} {a : Nat}

theorem hostRead_of_leased (ha : a < s.cfg.space) (hd : s.leasedDst a = true) :
    hostRead a s = .refused .leaseViolation := by
  simp [hostRead, ha, hd]

theorem hostRead_of_not_leased (ha : a < s.cfg.space) (hd : s.leasedDst a = false) :
    hostRead a s = .next { s with seen := .byte a (s.mem.read a) :: s.seen } := by
  simp [hostRead, ha, hd, State.tell]

theorem hostWrite_of_leased (ha : a < s.cfg.space) (hl : s.leasedSrc a = true ∨ s.leasedDst a = true) (b : U8) :
    hostWrite a b s = .refused .leaseViolation := by
  simp [hostWrite, ha, hl]

theorem hostWrite_of_not_leased (ha : a < s.cfg.space) (hs : s.leasedSrc a = false) (hd : s.leasedDst a = false) (b : U8) :
    hostWrite a b s = .next { s with mem := s.mem.write a b } := by
  simp [hostWrite, ha, hs, hd]

end

/-- Settles O31: the address is checked against the two kinds of leased region; by R34 a leased source address is in no
destination region, so it may be read. -/
theorem leaseRulesAreEnforced : Obligations.LeaseRulesAreEnforced := by
  intro s a rest h ha
  refine ⟨fun k p hp hsrc => ⟨fun b hh => ?srcWrite, fun hh => ?srcRead⟩,
    fun k p hp hdst => ⟨fun b hh => ?dstWrite, fun hh => ?dstRead⟩,
    fun hfree => ⟨fun hh => ?freeRead, fun b hh => ?freeWrite⟩⟩
  case srcWrite =>
    rw [hostStep_write hh]
    exact hostWrite_of_leased (s := { s with host := rest }) ha (.inl ((leasedSrc_eq_true _ a).2 ⟨k, p, hp, hsrc⟩)) b
  case srcRead =>
    rw [hostStep_read hh]
    exact hostRead_of_not_leased ha ((leasedDst_eq_false _ a).2 fun _ _ hq => h.dst_has_eq_false_of_src hp hq hsrc)
  case dstWrite =>
    rw [hostStep_write hh]
    exact hostWrite_of_leased (s := { s with host := rest }) ha (.inr ((leasedDst_eq_true _ a).2 ⟨k, p, hp, hdst⟩)) b
  case dstRead =>
    rw [hostStep_read hh]
    exact hostRead_of_leased ha ((leasedDst_eq_true _ a).2 ⟨k, p, hp, hdst⟩)
  case freeRead =>
    rw [hostStep_read hh]
    exact hostRead_of_not_leased ha ((leasedDst_eq_false _ a).2 fun k p hp => (hfree k p hp).2)
  case freeWrite =>
    rw [hostStep_write hh]
    have noSrc : s.leasedSrc a = false := (leasedSrc_eq_false s a).2 fun k p hp => (hfree k p hp).1
    have noDst : s.leasedDst a = false := (leasedDst_eq_false s a).2 fun k p hp => (hfree k p hp).2
    exact ⟨_, hostWrite_of_not_leased (s := { s with host := rest }) ha noSrc noDst b, rfl, Memory.read_write h.memWf a b⟩

/-! ## Hazards (R230, R231) -/

/-- A region that is not empty holds its base. -/
theorem Region.has_base {r : Region} (h : 0 < r.len) : r.has r.base = true :=
  (Region.has_iff r r.base).2 ⟨Nat.le_refl _, Nat.lt_add_of_pos_right h⟩

/-- Settles O34: while channel 2 is in flight its first destination byte is also the first source byte of the command, and
against the passes left after its retire step the whole contract holds. -/
theorem chainedConversionNeedsAWait : Obligations.ChainedConversionNeedsAWait := by
  intro s p o hp hidle hn hsrc hcount hS hD hgranted hapart
  rw [Nat.mul_comm 2] at hS hD
  refine ⟨?refused, fun hothers => ?accepted⟩
  case refused =>
    have srcHas : (srcRegionOf .ch5 o).has o.src = true :=
      Region.has_base (Nat.mul_pos (hcount ▸ hn) (Chan.srcBytes_pos .ch5))
    have dstHas : (p.dstRegion .ch2).has o.src = true :=
      hsrc ▸ Region.has_base (r := p.dstRegion .ch2) (Nat.mul_pos hn (Chan.dstBytes_pos .ch2))
    have hconflict : ¬ NoConflict s .ch5 (srcRegionOf .ch5 o) (dstRegionOf .ch5 o) := fun hno =>
      (hno .ch2 p (by decide) hp).2.2 o.src ⟨srcHas, dstHas⟩
    exact exec_refused (i := .rgb565ToRgba5551 o) hidle
      (issueRefusal_channelConflict ((noWrap_iff _ _ _).2 ⟨hS, hD⟩) hgranted hapart hconflict)
  case accepted =>
    have idleAfter : (retire .ch2 s).ch.get .ch5 = none := (Channels.get_set_other s.ch none (by decide)).trans hidle
    refine ⟨_, exec_accepted (i := .rgb565ToRgba5551 o) idleAfter ⟨hS, hD, hgranted, hapart, hothers⟩, ?_⟩
    exact (State.busy_eq_true _ _).2 ⟨newPass o, Channels.get_set_same (retire .ch2 s).ch .ch5 _⟩

/-- Settles O35: a shared address fails check 3, and with `DST = SRC` and a pixel to convert the base is one. -/
theorem inPlaceConversionIsRefused : Obligations.InPlaceConversionIsRefused := by
  intro i s hidle S D hS hD hgranted
  have refusedOfShared : (∃ a, S.has a = true ∧ D.has a = true) → exec i s = .refused .bufferOverlap :=
    fun ⟨a, ha⟩ => exec_refused hidle
      (issueRefusal_bufferOverlap ((noWrap_iff _ _ _).2 ⟨hS, hD⟩) hgranted fun hapart => hapart a ha)
  refine ⟨refusedOfShared, fun hsame hn => refusedOfShared ⟨S.base, ?src, ?dst⟩⟩
  case src => exact Region.has_base (Nat.mul_pos hn (Chan.srcBytes_pos _))
  case dst =>
    have sameBase : D.base = S.base := hsame
    exact sameBase ▸ Region.has_base (r := D) (Nat.mul_pos hn (Chan.dstBytes_pos _))

end Sys2Proof.Machine
end
